-- ==== Sys2Proof/Word.lean ====
section
/-! DEFINITION. The word types of the machine (00_scope.md R6, R8): all values are unsigned bit vectors. -/

namespace Sys2Proof

/-- A byte: a general register, a timer, one memory cell (R6 `XLEN`). -/
abbrev Byte := BitVec 8

/-- A 16-bit word: an opcode, I, pc, a return address, the key snapshot (R6). -/
abbrev Word := BitVec 16

/-- The 12-bit address field `nnn` of an opcode (30_encoding.md R72). -/
abbrev Addr12 := BitVec 12

/-- A register index, and equally a key index: 0 to 15 (R6 `NREG`, `NKEYS`). -/
abbrev RegIdx := Fin 16

end Sys2Proof
end

