-- ==== Sys2Proof/Config.lean ====
section
/-! DEFINITION. What is fixed for the machine: the parameters of 00_scope.md R6; the open parameters of R7, `FONT` and
`MEM_INIT` as an argument (`Params`), `rnd` and `KEY_PICK` as free values, which have no body. -/

namespace Sys2Proof.Config

/-- `MEM_SIZE`: the memory has 4096 bytes (R6). -/
abbrev memSize : Nat := 4096

/-- `ADDR_MAX`: the highest valid byte address (R6). -/
abbrev addrMax : Nat := 0x0FFF

/-- `STACK_DEPTH`: the capacity of the call stack (R6). -/
abbrev stackDepth : Nat := 16

/-- `SCREEN_WIDTH` (R6). -/
abbrev screenWidth : Nat := 64

/-- `SCREEN_HEIGHT` (R6). -/
abbrev screenHeight : Nat := 32

/-- `PROGRAM_START`: where LOAD copies a program to, and the reset value of pc (R6). -/
abbrev programStart : Nat := 0x200

/-- `ROM_MAX`: the largest program LOAD accepts, in bytes (R6). -/
abbrev romMax : Nat := 3584

/-- `FONT_SIZE`: 16 glyphs of 5 bytes from address 0x000 (R6). -/
abbrev fontSize : Nat := 80

/-- The open parameters `FONT` and `MEM_INIT` (R7), which the host's commands take as an argument (log 3, 4). No
instruction depends on them; only the contents of memory after RESET do (10_state.md R39). -/
structure Params where
  /-- `FONT`: the bytes at 0x000 to 0x04F after RESET (10_state.md R36, R37). -/
  font    : Vector Byte fontSize
  /-- `MEM_INIT`: the bytes at 0x050 to 0xFFF after RESET, the first of them that of address 0x050. -/
  memInit : Vector Byte (memSize - fontSize)
deriving DecidableEq, Repr

/-- FREE VALUE (log 1, DESIGN CHOICE; 00_scope.md R7 `rnd`, 42_load_alu.md R131): the n-th random byte Cxkk draws
when the host has supplied none. The spec leaves it unconstrained, so nothing is known of it. -/
opaque freeRandomByte : Nat → Byte

/-- FREE VALUE (log 2, DESIGN CHOICE; 00_scope.md R7 `KEY_PICK`, 45_keypad_timers.md R163): which key the
implementation prefers for a snapshot with several keys down. Nothing is known of it; `Machine.keyPick` keeps the
spec's bound, that the key is a pressed one. -/
opaque freeKeyPick : Word → RegIdx

end Sys2Proof.Config
end

