-- ==== Sys2Proof/Machine/Memory.lean ====
section
/-! DEFINITION. The 4096-byte memory (10_state.md R35, 20_memory.md R50) as plain data: the cells that differ from the
reset contents, by rising address. -/

namespace Sys2Proof.Machine

/-! ## The reset contents (10_state.md R36, R37, R39) -/

/-- Glyphs 0 to 7 of the font (R37). PRESUMED (log 3): the spec's default for `FONT`, which it marks as general
knowledge. -/
def fontDigits0to7 : List Byte :=
  [0xF0, 0x90, 0x90, 0x90, 0xF0] ++ [0x20, 0x60, 0x20, 0x20, 0x70] ++
  [0xF0, 0x10, 0xF0, 0x80, 0xF0] ++ [0xF0, 0x10, 0xF0, 0x10, 0xF0] ++
  [0x90, 0x90, 0xF0, 0x10, 0x10] ++ [0xF0, 0x80, 0xF0, 0x10, 0xF0] ++
  [0xF0, 0x80, 0xF0, 0x90, 0xF0] ++ [0xF0, 0x10, 0x20, 0x40, 0x40]

/-- Glyphs 8 to F of the font (R37). PRESUMED (log 3). -/
def fontDigits8toF : List Byte :=
  [0xF0, 0x90, 0xF0, 0x90, 0xF0] ++ [0xF0, 0x90, 0xF0, 0x10, 0xF0] ++
  [0xF0, 0x90, 0xF0, 0x90, 0x90] ++ [0xE0, 0x90, 0xE0, 0x90, 0xE0] ++
  [0xF0, 0x80, 0x80, 0x80, 0xF0] ++ [0xE0, 0x90, 0x90, 0x90, 0xE0] ++
  [0xF0, 0x80, 0xF0, 0x80, 0xF0] ++ [0xF0, 0x80, 0xF0, 0x80, 0x80]

/-- The default of `FONT`, 80 bytes: glyph d occupies the bytes at 5d to 5d + 4 (R36). -/
def font : List Byte := fontDigits0to7 ++ fontDigits8toF

/-- The default of every byte of `MEM_INIT`. DESIGN CHOICE (log 4): zero (D14). -/
def memInit : Byte := 0x00

/-- The parameters at the defaults the spec chooses (00_scope.md R7). -/
def defaultParams : Config.Params where
  font    := ⟨font.toArray, rfl⟩
  memInit := Vector.replicate (Config.memSize - Config.fontSize) memInit

/-- The contents of memory after RESET: `FONT` at 0x000 to 0x04F, `MEM_INIT` above it (R39). -/
def resetBytes (p : Config.Params) : List Byte := p.font.toList ++ p.memInit.toList

/-- What an unlisted address reads as: its byte after RESET at the default parameters (log 4, 18). A machine with other
parameters lists the cells that differ (`State.resetWith`). -/
def initByte (a : Nat) : Byte := font.getD a memInit

/-! ## The memory -/

/-- The cells that differ from the reset contents, by rising address. -/
abbrev Memory := List Host.Cell

/-- The one canonical form: addresses strictly rising, none outside the memory (R35), no cell equal to what an unlisted
address reads as. -/
abbrev Memory.wf (m : Memory) : Prop :=
  m.Pairwise (fun c d => c.1 < d.1) ∧ ∀ c ∈ m, c.1 < Config.memSize ∧ c.2 ≠ initByte c.1

/-- The byte at address `a` (R56). -/
def Memory.read : Memory → Nat → Byte
  | [], a => initByte a
  | (k, b) :: m, a => if a = k then b else Memory.read m a

/-- The list `m` with the cell `(a, b)` in front, or without it where an unlisted address reads as `b`. -/
def Memory.cons (a : Nat) (b : Byte) (m : Memory) : Memory := if b = initByte a then m else (a, b) :: m

/-- Writing the byte `b` at address `a` (R56), keeping the canonical form. -/
def Memory.write : Memory → Nat → Byte → Memory
  | [], a, b => Memory.cons a b []
  | (k, c) :: m, a, b =>
    if a < k then Memory.cons a b ((k, c) :: m)
    else if a = k then Memory.cons a b m
    else (k, c) :: Memory.write m a b

/-- The `n` bytes from address `a` upward. -/
def Memory.readBytes (m : Memory) (a : Nat) : Nat → List Byte
  | 0 => []
  | n + 1 => m.read a :: Memory.readBytes m (a + 1) n

/-- Writing bytes from address `a` upward, the first at `a`. -/
def Memory.writeBytes (m : Memory) (a : Nat) : List Byte → Memory
  | [] => m
  | b :: bs => Memory.writeBytes (m.write a b) (a + 1) bs

end Sys2Proof.Machine
end

