-- ==== Sys2Proof/Machine/State.lean ====
section
/-! DEFINITION. The state of the core, exactly the record of 10_state.md R20 (and two fields of the model's own for the
input `rnd`), the faults and refusals, and the state after RESET (R39). -/

namespace Sys2Proof.Machine

/-- The display: 32 rows of 64 one-bit pixels, `disp[r][c]` the pixel in row r and column c (10_state.md R33). -/
abbrev Display := Vector (Vector Bool Config.screenWidth) Config.screenHeight

/-- The state of the core (10_state.md R20). -/
structure State where
  /-- V0 to VF (R21, R22). -/
  v        : Vector Byte 16
  /-- The index register I, all 16 bits kept (R23). -/
  i        : Word
  /-- The program counter, a byte address (R24 to R27). -/
  pc       : Word
  /-- STACK[0] to STACK[15], the slots of the call stack (R28). -/
  stack    : Vector Word Config.stackDepth
  /-- SP, the number of live entries, 0 to 16 (R28). -/
  sp       : Fin (Config.stackDepth + 1)
  /-- The delay timer (R31). -/
  dt       : Byte
  /-- The sound timer (R32). -/
  st       : Byte
  /-- MEM (R35). -/
  mem      : Memory
  /-- DISP (R33). -/
  disp     : Display
  /-- KEYS, the latched key snapshot: bit k is 1 iff key k is pressed (R34). -/
  keys     : Word
  /-- The MODEL's own (log 1): the random bytes the host has supplied and Cxkk has not drawn yet, next first. -/
  rndIn    : List Byte
  /-- The MODEL's own (log 1): how many bytes Cxkk has drawn from `Config.freeRandomByte`, the host having supplied
  none. -/
  rndIndex : Nat
deriving DecidableEq, Repr

/-- The faults of a STEP (60_exceptions.md R190). A fault changes no state (R195) and leaves nothing behind (R197); the
fourth failure condition of R190, RomTooLarge, is LOAD's (`Status`). -/
inductive Fault where
  /-- An address to be accessed exceeds 0x0FFF (R191). Raised by every fetch and by Dxyn, Fx33, Fx55, Fx65. Safe: it is
  the spec's own fault, on exactly its conditions. -/
  | memoryAccessViolation
  /-- A call with 16 entries on the stack (R192). Raised by 2nnn. Safe: the spec's own fault. -/
  | stackOverflow
  /-- A return with an empty stack (R193). Raised by 00EE. Safe: the spec's own fault. -/
  | stackUnderflow
deriving DecidableEq, Repr

/-- Why a step has no meaning. No instruction of this model is refused. -/
inductive Refusal where
  /-- Raised by an arm of `exec` whose instruction has no meaning yet (none here). Safe: it stops the run. -/
  | notModelled (mnemonic : String)
deriving DecidableEq, Repr

/-- The state right after RESET (10_state.md R39, 70_reset_and_hazards.md R211), at the default `FONT` and `MEM_INIT`;
`State.resetWith` is the same at any. The slots of the stack, the key latch
and the memory above the font are the spec's decisions D24, D15, D14 (log 6, 5, 4); the last two fields are the model's
own (log 1). -/
def State.reset : State where
  v        := Vector.replicate 16 0x00#8
  i        := 0x0000#16
  pc       := 0x0200#16
  stack    := Vector.replicate Config.stackDepth 0x0000#16
  sp       := 0
  dt       := 0x00#8
  st       := 0x00#8
  mem      := []
  disp     := Vector.replicate Config.screenHeight (Vector.replicate Config.screenWidth false)
  keys     := 0x0000#16
  rndIn    := []
  rndIndex := 0

end Sys2Proof.Machine
end

