-- ==== Sys2Proof/Machine/Flags.lean ====
section
/-! DEFINITION. The values written to VF, the machine's only flag (10_state.md R22): "always 0x00 or 0x01". -/

namespace Sys2Proof.Machine

/-- A flag as the byte written to VF. -/
def flagByte (c : Bool) : Byte := if c then 0x01#8 else 0x00#8

/-- 8xy4: "VF := 1 if sum>255 else 0", the sum exact (42_load_alu.md R126). -/
def carryFlag (a b : Byte) : Byte := flagByte (decide (a.toNat + b.toNat > 255))

/-- 8xy5 and, with the operands exchanged, 8xy7: 1 iff a > b, strictly (R127, R129). -/
def greaterFlag (a b : Byte) : Byte := flagByte (decide (a.toNat > b.toNat))

/-- 8xy6: bit 0 of Vx before the shift (R128). -/
def lowBitFlag (a : Byte) : Byte := flagByte (a.getLsbD 0)

/-- 8xyE: bit 7 of Vx before the shift, as 0 or 1 (R130, C7). -/
def highBitFlag (a : Byte) : Byte := flagByte (a.getLsbD 7)

end Sys2Proof.Machine
end

