-- ==== Sys2Proof/Syntax.lean ====
section
/-! DEFINITION. The instructions: one constructor per row of spec/opcode_table.json, in the order of
30_encoding.md R76. Operand fields carry the exact widths of R72; the one that is a count, the sprite height of
Dxyn, is a number whose bound is checked in WellFormed. -/

namespace Sys2Proof

/-- The 34 instructions of 30_encoding.md R76. `x` and `y` name registers, `kk` is an immediate byte, `nnn` a 12-bit
address, `n` a sprite height (R72). The shifts keep their `y` field, which takes part in the encoding and has no effect
(R79). -/
inductive Instr where
  /-- 00E0 `CLS` (R150). -/
  | cls
  /-- 00EE `RET` (R100). -/
  | ret
  /-- 1nnn `JP addr` (R101). -/
  | jp (nnn : Addr12)
  /-- 2nnn `CALL addr` (R102). -/
  | call (nnn : Addr12)
  /-- 3xkk `SE Vx, byte` (R103). -/
  | seByte (x : RegIdx) (kk : Byte)
  /-- 4xkk `SNE Vx, byte` (R104). -/
  | sneByte (x : RegIdx) (kk : Byte)
  /-- 5xy0 `SE Vx, Vy` (R105). -/
  | seReg (x y : RegIdx)
  /-- 6xkk `LD Vx, byte` (R120). -/
  | ldByte (x : RegIdx) (kk : Byte)
  /-- 7xkk `ADD Vx, byte` (R121). -/
  | addByte (x : RegIdx) (kk : Byte)
  /-- 8xy0 `LD Vx, Vy` (R122). -/
  | ldReg (x y : RegIdx)
  /-- 8xy1 `OR Vx, Vy` (R123). -/
  | orReg (x y : RegIdx)
  /-- 8xy2 `AND Vx, Vy` (R124). -/
  | andReg (x y : RegIdx)
  /-- 8xy3 `XOR Vx, Vy` (R125). -/
  | xorReg (x y : RegIdx)
  /-- 8xy4 `ADD Vx, Vy` (R126). -/
  | addReg (x y : RegIdx)
  /-- 8xy5 `SUB Vx, Vy` (R127). -/
  | sub (x y : RegIdx)
  /-- 8xy6 `SHR Vx` (R128); `y` is ignored (R79). -/
  | shr (x y : RegIdx)
  /-- 8xy7 `SUBN Vx, Vy` (R129). -/
  | subn (x y : RegIdx)
  /-- 8xyE `SHL Vx` (R130); `y` is ignored (R79). -/
  | shl (x y : RegIdx)
  /-- 9xy0 `SNE Vx, Vy` (R106). -/
  | sneReg (x y : RegIdx)
  /-- Annn `LD I, addr` (R140). -/
  | ldI (nnn : Addr12)
  /-- Bnnn `JP V0, addr` (R107). -/
  | jpV0 (nnn : Addr12)
  /-- Cxkk `RND Vx, byte` (R131). -/
  | rnd (x : RegIdx) (kk : Byte)
  /-- Dxyn `DRW Vx, Vy, n` (R151). -/
  | drw (x y : RegIdx) (n : Nat)
  /-- Ex9E `SKP Vx` (R160). -/
  | skp (x : RegIdx)
  /-- ExA1 `SKNP Vx` (R161). -/
  | sknp (x : RegIdx)
  /-- Fx07 `LD Vx, DT` (R162). -/
  | ldVxDt (x : RegIdx)
  /-- Fx0A `LD Vx, K` (R163). -/
  | ldVxK (x : RegIdx)
  /-- Fx15 `LD DT, Vx` (R164). -/
  | ldDtVx (x : RegIdx)
  /-- Fx18 `LD ST, Vx` (R165). -/
  | ldStVx (x : RegIdx)
  /-- Fx1E `ADD I, Vx` (R141). -/
  | addI (x : RegIdx)
  /-- Fx29 `LD F, Vx` (R142). -/
  | ldF (x : RegIdx)
  /-- Fx33 `LD B, Vx` (R143). -/
  | ldB (x : RegIdx)
  /-- Fx55 `LD [I], Vx` (R144). -/
  | ldMemVx (x : RegIdx)
  /-- Fx65 `LD Vx, [I]` (R145). -/
  | ldVxMem (x : RegIdx)
deriving DecidableEq, Repr

end Sys2Proof
end

