-- ==== Sys2Proof/WellFormed.lean ====
section
/-! DEFINITION. Which terms of `Instr` are instructions of the hardware. Registers, bytes and addresses are bounded by
their types (30_encoding.md R72, R74: every value of those fields is valid), so the one check is the sprite height's. -/

namespace Sys2Proof

/-- The sprite height of Dxyn is a 4-bit field: "`n` in Dxyn is a row count 0..15" (30_encoding.md R74). -/
abbrev spriteHeightOk (n : Nat) : Prop := n ≤ 15

/-- An instruction that the encoding can express (30_encoding.md R72 to R74). -/
abbrev Instr.WellFormed : Instr → Prop
  | .drw _ _ n => spriteHeightOk n
  | .cls | .ret | .jp _ | .call _ | .seByte _ _ | .sneByte _ _ | .seReg _ _ | .ldByte _ _ | .addByte _ _
  | .ldReg _ _ | .orReg _ _ | .andReg _ _ | .xorReg _ _ | .addReg _ _ | .sub _ _ | .shr _ _ | .subn _ _
  | .shl _ _ | .sneReg _ _ | .ldI _ | .jpV0 _ | .rnd _ _ | .skp _ | .sknp _ | .ldVxDt _ | .ldVxK _
  | .ldDtVx _ | .ldStVx _ | .addI _ | .ldF _ | .ldB _ | .ldMemVx _ | .ldVxMem _ => True

end Sys2Proof
end

