-- ==== Sys2Proof/Decode.lean ====
section
/-! DEFINITION. Decoding and encoding (30_encoding.md): the fields of an opcode (R72), the opcode map as data (R76), the
decoder, total on any word and on any bytes, and after it the encoder. -/

namespace Sys2Proof

/-! ## The fields of an opcode (R72) -/

/-- `op = w[15:12]`, which "selects instruction family". -/
def fieldOp (w : Word) : BitVec 4 := w.extractLsb' 12 4

/-- A 4-bit field read as a register index: every value names a register (R74). -/
def regOfBits (b : BitVec 4) : RegIdx := ⟨b.toNat, b.isLt⟩

/-- `x = w[11:8]`, a register index. -/
def fieldX (w : Word) : RegIdx := regOfBits (w.extractLsb' 8 4)

/-- `y = w[7:4]`, a register index. -/
def fieldY (w : Word) : RegIdx := regOfBits (w.extractLsb' 4 4)

/-- `n = w[3:0]`: the sprite height of Dxyn, the sub-opcode of families 5, 8 and 9. -/
def fieldN (w : Word) : BitVec 4 := w.extractLsb' 0 4

/-- `nnn = w[11:0]`, an address. -/
def fieldNnn (w : Word) : Addr12 := w.extractLsb' 0 12

/-- `kk = w[7:0]`: an immediate byte, the sub-opcode of families E and F. -/
def fieldKk (w : Word) : Byte := w.extractLsb' 0 8

/-! ## The opcode map as data (R75, R76) -/

/-- One row of the opcode map of R76. -/
structure OpcodeRow where
  mnemonic : String
  mask     : Word
  value    : Word
deriving DecidableEq, Repr

/-- "An opcode `w` selects the instruction of a row of rule R76 iff `(w AND mask) = match`" (R75). -/
def OpcodeRow.selects (r : OpcodeRow) (w : Word) : Bool := w &&& r.mask == r.value

/-- Rows 1 to 9 of R76. -/
def opcodeRows0to7 : List OpcodeRow :=
  [⟨"CLS", 0xFFFF, 0x00E0⟩, ⟨"RET", 0xFFFF, 0x00EE⟩, ⟨"JP_addr", 0xF000, 0x1000⟩, ⟨"CALL_addr", 0xF000, 0x2000⟩,
   ⟨"SE_Vx__byte", 0xF000, 0x3000⟩, ⟨"SNE_Vx__byte", 0xF000, 0x4000⟩, ⟨"SE_Vx__Vy", 0xF00F, 0x5000⟩,
   ⟨"LD_Vx__byte", 0xF000, 0x6000⟩, ⟨"ADD_Vx__byte", 0xF000, 0x7000⟩]

/-- Rows 10 to 18 of R76: family 8. -/
def opcodeRows8 : List OpcodeRow :=
  [⟨"LD_Vx__Vy", 0xF00F, 0x8000⟩, ⟨"OR_Vx__Vy", 0xF00F, 0x8001⟩, ⟨"AND_Vx__Vy", 0xF00F, 0x8002⟩,
   ⟨"XOR_Vx__Vy", 0xF00F, 0x8003⟩, ⟨"ADD_Vx__Vy", 0xF00F, 0x8004⟩, ⟨"SUB_Vx__Vy", 0xF00F, 0x8005⟩,
   ⟨"SHR_Vx", 0xF00F, 0x8006⟩, ⟨"SUBN_Vx__Vy", 0xF00F, 0x8007⟩, ⟨"SHL_Vx", 0xF00F, 0x800E⟩]

/-- Rows 19 to 25 of R76. -/
def opcodeRows9toE : List OpcodeRow :=
  [⟨"SNE_Vx__Vy", 0xF00F, 0x9000⟩, ⟨"LD_I__addr", 0xF000, 0xA000⟩, ⟨"JP_V0__addr", 0xF000, 0xB000⟩,
   ⟨"RND_Vx__byte", 0xF000, 0xC000⟩, ⟨"DRW_Vx__Vy__n", 0xF000, 0xD000⟩, ⟨"SKP_Vx", 0xF0FF, 0xE09E⟩,
   ⟨"SKNP_Vx", 0xF0FF, 0xE0A1⟩]

/-- Rows 26 to 34 of R76: family F. -/
def opcodeRowsF : List OpcodeRow :=
  [⟨"LD_Vx__DT", 0xF0FF, 0xF007⟩, ⟨"LD_Vx__K", 0xF0FF, 0xF00A⟩, ⟨"LD_DT__Vx", 0xF0FF, 0xF015⟩,
   ⟨"LD_ST__Vx", 0xF0FF, 0xF018⟩, ⟨"ADD_I__Vx", 0xF0FF, 0xF01E⟩, ⟨"LD_F__Vx", 0xF0FF, 0xF029⟩,
   ⟨"LD_B__Vx", 0xF0FF, 0xF033⟩, ⟨"LD__I___Vx", 0xF0FF, 0xF055⟩, ⟨"LD_Vx___I", 0xF0FF, 0xF065⟩]

/-- The opcode map: the 34 rows of R76, in its order. -/
def opcodeRows : List OpcodeRow := opcodeRows0to7 ++ opcodeRows8 ++ opcodeRows9toE ++ opcodeRowsF

/-- The row of R76 an instruction stands for. -/
def Instr.row : Instr → OpcodeRow
  | .cls => ⟨"CLS", 0xFFFF, 0x00E0⟩
  | .ret => ⟨"RET", 0xFFFF, 0x00EE⟩
  | .jp _ => ⟨"JP_addr", 0xF000, 0x1000⟩
  | .call _ => ⟨"CALL_addr", 0xF000, 0x2000⟩
  | .seByte _ _ => ⟨"SE_Vx__byte", 0xF000, 0x3000⟩
  | .sneByte _ _ => ⟨"SNE_Vx__byte", 0xF000, 0x4000⟩
  | .seReg _ _ => ⟨"SE_Vx__Vy", 0xF00F, 0x5000⟩
  | .ldByte _ _ => ⟨"LD_Vx__byte", 0xF000, 0x6000⟩
  | .addByte _ _ => ⟨"ADD_Vx__byte", 0xF000, 0x7000⟩
  | .ldReg _ _ => ⟨"LD_Vx__Vy", 0xF00F, 0x8000⟩
  | .orReg _ _ => ⟨"OR_Vx__Vy", 0xF00F, 0x8001⟩
  | .andReg _ _ => ⟨"AND_Vx__Vy", 0xF00F, 0x8002⟩
  | .xorReg _ _ => ⟨"XOR_Vx__Vy", 0xF00F, 0x8003⟩
  | .addReg _ _ => ⟨"ADD_Vx__Vy", 0xF00F, 0x8004⟩
  | .sub _ _ => ⟨"SUB_Vx__Vy", 0xF00F, 0x8005⟩
  | .shr _ _ => ⟨"SHR_Vx", 0xF00F, 0x8006⟩
  | .subn _ _ => ⟨"SUBN_Vx__Vy", 0xF00F, 0x8007⟩
  | .shl _ _ => ⟨"SHL_Vx", 0xF00F, 0x800E⟩
  | .sneReg _ _ => ⟨"SNE_Vx__Vy", 0xF00F, 0x9000⟩
  | .ldI _ => ⟨"LD_I__addr", 0xF000, 0xA000⟩
  | .jpV0 _ => ⟨"JP_V0__addr", 0xF000, 0xB000⟩
  | .rnd _ _ => ⟨"RND_Vx__byte", 0xF000, 0xC000⟩
  | .drw _ _ _ => ⟨"DRW_Vx__Vy__n", 0xF000, 0xD000⟩
  | .skp _ => ⟨"SKP_Vx", 0xF0FF, 0xE09E⟩
  | .sknp _ => ⟨"SKNP_Vx", 0xF0FF, 0xE0A1⟩
  | .ldVxDt _ => ⟨"LD_Vx__DT", 0xF0FF, 0xF007⟩
  | .ldVxK _ => ⟨"LD_Vx__K", 0xF0FF, 0xF00A⟩
  | .ldDtVx _ => ⟨"LD_DT__Vx", 0xF0FF, 0xF015⟩
  | .ldStVx _ => ⟨"LD_ST__Vx", 0xF0FF, 0xF018⟩
  | .addI _ => ⟨"ADD_I__Vx", 0xF0FF, 0xF01E⟩
  | .ldF _ => ⟨"LD_F__Vx", 0xF0FF, 0xF029⟩
  | .ldB _ => ⟨"LD_B__Vx", 0xF0FF, 0xF033⟩
  | .ldMemVx _ => ⟨"LD__I___Vx", 0xF0FF, 0xF055⟩
  | .ldVxMem _ => ⟨"LD_Vx___I", 0xF0FF, 0xF065⟩

/-! ## The decoder (R75 to R79) -/

/-- Family 8: `n` selects one of nine operations, 0 to 7 and 0xE (R77); the others are unmatched (R78). -/
def decodeFamily8 (x y : RegIdx) (n : BitVec 4) : Option Instr :=
  match n with
  | 0x0#4 => some (.ldReg x y)
  | 0x1#4 => some (.orReg x y)
  | 0x2#4 => some (.andReg x y)
  | 0x3#4 => some (.xorReg x y)
  | 0x4#4 => some (.addReg x y)
  | 0x5#4 => some (.sub x y)
  | 0x6#4 => some (.shr x y)
  | 0x7#4 => some (.subn x y)
  | 0xE#4 => some (.shl x y)
  | _ => none

/-- Family E: `kk` is 0x9E or 0xA1 (R77); the others are unmatched (R78). -/
def decodeFamilyE (x : RegIdx) (kk : Byte) : Option Instr :=
  match kk with
  | 0x9E#8 => some (.skp x)
  | 0xA1#8 => some (.sknp x)
  | _ => none

/-- Family F: `kk` selects one of nine operations (R77); the others are unmatched (R78). -/
def decodeFamilyF (x : RegIdx) (kk : Byte) : Option Instr :=
  match kk with
  | 0x07#8 => some (.ldVxDt x)
  | 0x0A#8 => some (.ldVxK x)
  | 0x15#8 => some (.ldDtVx x)
  | 0x18#8 => some (.ldStVx x)
  | 0x1E#8 => some (.addI x)
  | 0x29#8 => some (.ldF x)
  | 0x33#8 => some (.ldB x)
  | 0x55#8 => some (.ldMemVx x)
  | 0x65#8 => some (.ldVxMem x)
  | _ => none

/-- The instruction an opcode selects, by family (R77); `none` for an unmatched opcode, which is a defined
no-operation and not an error (R78, 40_step_cycle.md R95). -/
def decodeWord (w : Word) : Option Instr :=
  match fieldOp w with
  | 0x0#4 => if w = 0x00E0#16 then some .cls else if w = 0x00EE#16 then some .ret else none
  | 0x1#4 => some (.jp (fieldNnn w))
  | 0x2#4 => some (.call (fieldNnn w))
  | 0x3#4 => some (.seByte (fieldX w) (fieldKk w))
  | 0x4#4 => some (.sneByte (fieldX w) (fieldKk w))
  | 0x5#4 => if fieldN w = 0#4 then some (.seReg (fieldX w) (fieldY w)) else none
  | 0x6#4 => some (.ldByte (fieldX w) (fieldKk w))
  | 0x7#4 => some (.addByte (fieldX w) (fieldKk w))
  | 0x8#4 => decodeFamily8 (fieldX w) (fieldY w) (fieldN w)
  | 0x9#4 => if fieldN w = 0#4 then some (.sneReg (fieldX w) (fieldY w)) else none
  | 0xA#4 => some (.ldI (fieldNnn w))
  | 0xB#4 => some (.jpV0 (fieldNnn w))
  | 0xC#4 => some (.rnd (fieldX w) (fieldKk w))
  | 0xD#4 => some (.drw (fieldX w) (fieldY w) (fieldN w).toNat)
  | 0xE#4 => decodeFamilyE (fieldX w) (fieldKk w)
  | 0xF#4 => decodeFamilyF (fieldX w) (fieldKk w)
  | _ => none

/-- Why the bytes at an address are no instruction of the table. -/
inductive Reject where
  /-- Fewer than two bytes: every instruction has two (R70). -/
  | truncated
  /-- The opcode matches no row of R76 (R78); the step runs it as a no-operation (R95). -/
  | unmatched (w : Word)
deriving DecidableEq, Repr

/-- What the decoder reads from a list of bytes: an instruction and the bytes after it, or a rejection by name. -/
inductive Decoded where
  | instr (i : Instr) (rest : List Byte)
  | rejected (why : Reject)
deriving DecidableEq, Repr

/-- The opcode of two bytes, the one at the lower address the high byte (20_memory.md R51, 30_encoding.md R71). -/
def opcodeOfBytes (first second : Byte) : Word := first ++ second

/-- Decoding from bytes: two bytes an instruction, high byte first (R70, R71). -/
def decode : List Byte → Decoded
  | first :: second :: rest =>
    match decodeWord (opcodeOfBytes first second) with
    | some i => .instr i rest
    | none => .rejected (.unmatched (opcodeOfBytes first second))
  | _ => .rejected .truncated

/-! ## The encoder (the formats of R73) -/

/-- A register index as a 4-bit field. -/
def bitsOfReg (x : RegIdx) : BitVec 4 := BitVec.ofNat 4 x.val

/-- Format NNN: `Pnnn`. -/
def wordNnn (op : BitVec 4) (nnn : Addr12) : Word := op ++ nnn

/-- Format XKK: `Pxkk`. -/
def wordXkk (op : BitVec 4) (x : RegIdx) (kk : Byte) : Word := op ++ bitsOfReg x ++ kk

/-- Formats XY and XYN: `Pxyq`, `Pxyn`. -/
def wordXyn (op : BitVec 4) (x y : RegIdx) (n : BitVec 4) : Word := op ++ bitsOfReg x ++ bitsOfReg y ++ n

/-- The opcode of an instruction (R76). For an ill-formed sprite height the low four bits are encoded. -/
def encode : Instr → Word
  | .cls => 0x00E0#16
  | .ret => 0x00EE#16
  | .jp nnn => wordNnn 0x1#4 nnn
  | .call nnn => wordNnn 0x2#4 nnn
  | .seByte x kk => wordXkk 0x3#4 x kk
  | .sneByte x kk => wordXkk 0x4#4 x kk
  | .seReg x y => wordXyn 0x5#4 x y 0x0#4
  | .ldByte x kk => wordXkk 0x6#4 x kk
  | .addByte x kk => wordXkk 0x7#4 x kk
  | .ldReg x y => wordXyn 0x8#4 x y 0x0#4
  | .orReg x y => wordXyn 0x8#4 x y 0x1#4
  | .andReg x y => wordXyn 0x8#4 x y 0x2#4
  | .xorReg x y => wordXyn 0x8#4 x y 0x3#4
  | .addReg x y => wordXyn 0x8#4 x y 0x4#4
  | .sub x y => wordXyn 0x8#4 x y 0x5#4
  | .shr x y => wordXyn 0x8#4 x y 0x6#4
  | .subn x y => wordXyn 0x8#4 x y 0x7#4
  | .shl x y => wordXyn 0x8#4 x y 0xE#4
  | .sneReg x y => wordXyn 0x9#4 x y 0x0#4
  | .ldI nnn => wordNnn 0xA#4 nnn
  | .jpV0 nnn => wordNnn 0xB#4 nnn
  | .rnd x kk => wordXkk 0xC#4 x kk
  | .drw x y n => wordXyn 0xD#4 x y (BitVec.ofNat 4 n)
  | .skp x => wordXkk 0xE#4 x 0x9E#8
  | .sknp x => wordXkk 0xE#4 x 0xA1#8
  | .ldVxDt x => wordXkk 0xF#4 x 0x07#8
  | .ldVxK x => wordXkk 0xF#4 x 0x0A#8
  | .ldDtVx x => wordXkk 0xF#4 x 0x15#8
  | .ldStVx x => wordXkk 0xF#4 x 0x18#8
  | .addI x => wordXkk 0xF#4 x 0x1E#8
  | .ldF x => wordXkk 0xF#4 x 0x29#8
  | .ldB x => wordXkk 0xF#4 x 0x33#8
  | .ldMemVx x => wordXkk 0xF#4 x 0x55#8
  | .ldVxMem x => wordXkk 0xF#4 x 0x65#8

/-- The high byte of a word: the one stored at the lower address (20_memory.md R51). -/
def highByte (w : Word) : Byte := w.extractLsb' 8 8

/-- The low byte of a word. -/
def lowByte (w : Word) : Byte := w.extractLsb' 0 8

/-- The bytes of an instruction as memory holds them, lowest address first (R51, R70). -/
def encodeBytes (i : Instr) : List Byte := [highByte (encode i), lowByte (encode i)]

/-- A table row's word `w` of `nbits` bits as the 16-bit opcode the hardware stores; every instruction has one word
(R70), so bits above `nbits` are 0. -/
def tableWord (nbits w : Nat) : Word := BitVec.ofNat 16 (w % 2 ^ nbits)

/-- The instruction the decoder reads from a table row's word laid out in memory order. -/
def decodeTableWord (nbits w : Nat) : Option Instr :=
  match decode [highByte (tableWord nbits w), lowByte (tableWord nbits w)] with
  | .instr i _ => some i
  | .rejected _ => none

end Sys2Proof
end

