-- ==== Sys2Proof/Machine/Ops.lean ====
section
/-! DEFINITION. The shared operations: registers, pc, call stack, memory ranges, taking a fault, the fetch. Every
meaning goes through these. -/

namespace Sys2Proof.Machine

/-- What a meaning answers: the next state, or one of the faults of 60_exceptions.md R190. -/
abbrev Result := Host.Outcome State Fault Refusal

/-! ## Taking a fault (60_exceptions.md R195 to R197) -/

/-- `raise <Fault>` (00_scope.md R9): "the step ends at once, reports the named fault as its status and changes no state
at all". There is no trap entry: nothing is saved, no vector is taken, no mode switched (R196), and no return from it
(R197): the host keeps the state the step began in (`Machine.issue`, log 7). -/
def raise (f : Fault) : Result := .fault f

/-! ## General registers (10_state.md R21, R22) -/

/-- `V[x]`. -/
def State.reg (s : State) (x : RegIdx) : Byte := s.v[x]

/-- `V[x] <- b`. -/
def State.setReg (s : State) (x : RegIdx) (b : Byte) : State := { s with v := s.v.set x b }

/-- VF, "register 15", the machine's only flag (R22). -/
def regF : RegIdx := 15

/-- An instruction that writes a flag and a result: VF first, then Vx, so that for x = 0xF the result remains
(42_load_alu.md R133; the spec's decision D8, log 9). -/
def State.setFlagReg (s : State) (flag : Byte) (x : RegIdx) (b : Byte) : State := (s.setReg regF flag).setReg x b

/-- Registers from index `k` upward loaded with a list of bytes (43_index_memory.md R145). -/
def fillRegs (k : Nat) (v : Vector Byte 16) : List Byte → Vector Byte 16
  | [] => v
  | b :: bs => fillRegs (k + 1) (v.setIfInBounds k b) bs

/-- `V[0]` to `V[x]`, in that order (R144). -/
def State.regsUpTo (s : State) (x : RegIdx) : List Byte := s.v.toList.take (x.val + 1)

/-! ## The special registers -/

/-- `pc <- target`. -/
def State.setPc (s : State) (target : Word) : State := { s with pc := target }

/-- The default advance `pc <- (pc + 2) mod 65536` (40_step_cycle.md R93). -/
def State.advance (s : State) : State := s.setPc (s.pc + 2#16)

/-- A skip instruction's advance: by 4 when the condition holds, by 2 otherwise (40_step_cycle.md R94). -/
def State.skipIf (s : State) (cond : Bool) : State := s.setPc (if cond then s.pc + 4#16 else s.pc + 2#16)

/-- `I <- a` (10_state.md R23). -/
def State.setI (s : State) (a : Word) : State := { s with i := a }

/-- `DT <- b` (R31). -/
def State.setDt (s : State) (b : Byte) : State := { s with dt := b }

/-- `ST <- b` (R32). -/
def State.setSt (s : State) (b : Byte) : State := { s with st := b }

/-- `KEYS <- k` (R34). -/
def State.setKeys (s : State) (k : Word) : State := { s with keys := k }

/-- Replacing the display (R33). -/
def State.setDisp (s : State) (d : Display) : State := { s with disp := d }

/-! ## The call stack (10_state.md R28 to R30) -/

/-- Push (R29): fails when SP = 16, otherwise `STACK[SP] <- a; SP <- SP + 1`. -/
def State.push (s : State) (a : Word) : Option State :=
  if h : s.sp.val < Config.stackDepth then
    some { s with stack := s.stack.set s.sp.val a h, sp := ⟨s.sp.val + 1, by omega⟩ }
  else none

/-- Pop (R30): fails when SP = 0, otherwise `SP <- SP − 1` and the result is `STACK[SP]` with the new SP; the slot keeps
its contents. -/
def State.pop (s : State) : Option (Word × State) :=
  if h : 0 < s.sp.val then
    some (s.stack[s.sp.val - 1]'(by omega), { s with sp := ⟨s.sp.val - 1, by omega⟩ })
  else none

/-! ## Memory (20_memory.md) -/

/-- The bounds test (R55): `len` bytes are to be accessed from `base` upward, and the last of them lies above 0x0FFF. The
sum is exact; nothing wraps. No byte, no test. -/
def beyondMemory (base len : Nat) : Bool := decide (1 ≤ len ∧ base + len - 1 > Config.addrMax)

/-- An instruction that accesses `len` bytes from I upward: the range is tested before any access or write, and a range
that leaves the memory raises (R55, 60_exceptions.md R191, R195). -/
def State.withRangeAtI (s : State) (len : Nat) (effect : State) : Result :=
  if beyondMemory s.i.toNat len then raise .memoryAccessViolation else .next effect

/-- The byte at address `a`. -/
def State.byteAt (s : State) (a : Nat) : Byte := s.mem.read a

/-- The `n` bytes from address `a` upward. -/
def State.bytesAt (s : State) (a n : Nat) : List Byte := s.mem.readBytes a n

/-- Bytes stored from address `a` upward, the first at `a`. -/
def State.store (s : State) (a : Nat) (bs : List Byte) : State := { s with mem := s.mem.writeBytes a bs }

/-- The state right after RESET with the parameters `p` (10_state.md R39): `State.reset` with the contents of memory that
`FONT` and `MEM_INIT` give (log 3, 4). -/
def State.resetWith (p : Config.Params) : State := State.reset.store 0 (resetBytes p)

/-! ## Fetching (40_step_cycle.md R91, R92) -/

/-- The opcode at pc: two consecutive bytes, big-endian (20_memory.md R51); none when `pc > 0x0FFE`, where the second byte
would lie outside memory (R92; the spec's decision D3, log 8). -/
def State.fetch (s : State) : Option Word :=
  if s.pc.toNat > 0x0FFE then none
  else some (opcodeOfBytes (s.byteAt s.pc.toNat) (s.byteAt (s.pc.toNat + 1)))

/-- Where `State.withFetchWord` places an opcode: pc, or the reset entry point where pc cannot be fetched from (log 14). -/
def State.fetchPlace (s : State) : Word := if s.pc.toNat > 0x0FFE then 0x0200#16 else s.pc

/-- An opcode stored, high byte first, where the next fetch reads. -/
def State.placeOpcode (s : State) (w : Word) : State :=
  (s.setPc s.fetchPlace).store s.fetchPlace.toNat [highByte w, lowByte w]

/-! ## The random input (42_load_alu.md R131, 46_host_commands.md R174) -/

/-- The byte `rnd` of a Cxkk: the host's where it has supplied one, else a free value (log 1). -/
def State.randomByte (s : State) : Byte :=
  match s.rndIn with
  | b :: _ => b
  | [] => Config.freeRandomByte s.rndIndex

/-- The state with that byte consumed. Only Cxkk consumes one (R131). -/
def State.dropRandom (s : State) : State :=
  match s.rndIn with
  | _ :: rest => { s with rndIn := rest }
  | [] => { s with rndIndex := s.rndIndex + 1 }

end Sys2Proof.Machine
end

