-- ==== Sys2Proof/Machine/Operands.lean ====
section
/-! DEFINITION. Operand forms and the values computed from them: address operands, the decimal digits, key tests and
the key pick. -/

namespace Sys2Proof.Machine

/-- `zext_16(nnn)` (30_encoding.md R74). -/
def addrOperand (nnn : Addr12) : Word := nnn.setWidth 16

/-- `zext_16(V[x])`: a register widened to 16 bits (00_scope.md R9). -/
def State.regWord (s : State) (x : RegIdx) : Word := (s.reg x).setWidth 16

/-- The address of the font glyph for the whole byte `a`: `5 × zext_16(a)` (43_index_memory.md R142, D11). -/
def glyphAddress (a : Byte) : Word := BitVec.ofNat 16 (5 * a.toNat)

/-- The three decimal digits of a byte, hundreds first (R143). -/
def decimalDigits (a : Byte) : List Byte :=
  [BitVec.ofNat 8 (a.toNat / 100), BitVec.ofNat 8 (a.toNat / 10 % 10), BitVec.ofNat 8 (a.toNat % 10)]

/-- `pressed <- (a ≤ 0x0F) and (KEYS[a] = 1)` (45_keypad_timers.md R160, R161, D12). -/
def keyPressed (keys : Word) (a : Byte) : Bool := decide (a.toNat ≤ 0x0F) && keys.getLsbD a.toNat

/-- The sixteen keys in rising order. -/
def allKeys : List RegIdx := [0, 1, 2, 3, 4, 5, 6, 7, 8, 9, 10, 11, 12, 13, 14, 15]

/-- The lowest-numbered pressed key (the spec's default for `KEY_PICK`, D13); 0 where no key is pressed. -/
def lowestKey (keys : Word) : RegIdx := (allKeys.find? (fun k => keys.getLsbD k.val)).getD 0

/-- `KEY_PICK(KEYS)` for a non-zero snapshot (R163): some pressed key. With exactly one key down it is that key; with
several it is a FREE VALUE among the pressed ones (log 2): the key `Config.freeKeyPick` names if that key is down. -/
def keyPick (keys : Word) : RegIdx :=
  if keys &&& (keys - 1#16) = 0#16 then lowestKey keys
  else if keys.getLsbD (Config.freeKeyPick keys).val then Config.freeKeyPick keys
  else lowestKey keys

/-- A key index as the byte stored in Vx. -/
def keyByte (k : RegIdx) : Byte := BitVec.ofNat 8 k.val

end Sys2Proof.Machine
end

