-- ==== Sys2Proof/Machine/Alu.lean ====
section
/-! DEFINITION. Register loads, arithmetic, logic, shifts and random (42_load_alu.md R120 to R131). All operands are read
from the state before the instruction (40_step_cycle.md R97); arithmetic is modulo 256 (R132). -/

namespace Sys2Proof.Machine

/-- 6xkk `LD Vx, byte` (R120). -/
def execLdByte (x : RegIdx) (kk : Byte) (s : State) : Result := .next (s.setReg x kk).advance

/-- 7xkk `ADD Vx, byte` (R121): no flag. -/
def execAddByte (x : RegIdx) (kk : Byte) (s : State) : Result := .next (s.setReg x (s.reg x + kk)).advance

/-- 8xy0 `LD Vx, Vy` (R122). -/
def execLdReg (x y : RegIdx) (s : State) : Result := .next (s.setReg x (s.reg y)).advance

/-- 8xy1 `OR Vx, Vy` (R123): VF unchanged. -/
def execOr (x y : RegIdx) (s : State) : Result := .next (s.setReg x (s.reg x ||| s.reg y)).advance

/-- 8xy2 `AND Vx, Vy` (R124): VF unchanged. -/
def execAnd (x y : RegIdx) (s : State) : Result := .next (s.setReg x (s.reg x &&& s.reg y)).advance

/-- 8xy3 `XOR Vx, Vy` (R125): VF unchanged. -/
def execXor (x y : RegIdx) (s : State) : Result := .next (s.setReg x (s.reg x ^^^ s.reg y)).advance

/-- 8xy4 `ADD Vx, Vy` (R126): VF is the carry. -/
def execAddReg (x y : RegIdx) (s : State) : Result :=
  .next (s.setFlagReg (carryFlag (s.reg x) (s.reg y)) x (s.reg x + s.reg y)).advance

/-- 8xy5 `SUB Vx, Vy` (R127): VF is 1 iff Vx > Vy, strictly. -/
def execSub (x y : RegIdx) (s : State) : Result :=
  .next (s.setFlagReg (greaterFlag (s.reg x) (s.reg y)) x (s.reg x - s.reg y)).advance

/-- 8xy6 `SHR Vx` (R128): on Vx alone; `y` is ignored (30_encoding.md R79). -/
def execShr (x : RegIdx) (s : State) : Result :=
  .next (s.setFlagReg (lowBitFlag (s.reg x)) x (s.reg x >>> 1)).advance

/-- 8xy7 `SUBN Vx, Vy` (R129): Vy − Vx, VF is 1 iff Vy > Vx, strictly. -/
def execSubn (x y : RegIdx) (s : State) : Result :=
  .next (s.setFlagReg (greaterFlag (s.reg y) (s.reg x)) x (s.reg y - s.reg x)).advance

/-- 8xyE `SHL Vx` (R130): on Vx alone; `y` is ignored (30_encoding.md R79). -/
def execShl (x : RegIdx) (s : State) : Result :=
  .next (s.setFlagReg (highBitFlag (s.reg x)) x (s.reg x <<< 1)).advance

/-- Cxkk `RND Vx, byte` (R131): the input byte `rnd` AND kk. -/
def execRnd (x : RegIdx) (kk : Byte) (s : State) : Result :=
  .next (s.dropRandom.setReg x (s.randomByte &&& kk)).advance

end Sys2Proof.Machine
end

