-- ==== Sys2Proof/Machine/Display.lean ====
section
/-! DEFINITION. The display instructions (44_display.md R150, R151). -/

namespace Sys2Proof.Machine

/-- The blank display. -/
def blankDisplay : Display := Vector.replicate Config.screenHeight (Vector.replicate Config.screenWidth false)

/-- The pixel in row r and column c (10_state.md R33). -/
def pixel (d : Display) (r : Fin Config.screenHeight) (c : Fin Config.screenWidth) : Bool := d[r][c]

/-- `DISP[r][c] <- b`. -/
def setPixel (d : Display) (r : Fin Config.screenHeight) (c : Fin Config.screenWidth) (b : Bool) : Display :=
  d.set r (d[r].set c b)

/-- The target row of a sprite row: `(b + row) mod 32` (R151). -/
def targetRow (b : Byte) (row : Nat) : Fin Config.screenHeight :=
  ⟨(b.toNat + row) % Config.screenHeight, Nat.mod_lt _ (by decide)⟩

/-- The target column of a sprite bit: `(a + i) mod 64` (R151). -/
def targetCol (a : Byte) (i : Nat) : Fin Config.screenWidth :=
  ⟨(a.toNat + i) % Config.screenWidth, Nat.mod_lt _ (by decide)⟩

/-- The display while a sprite is drawn, and the collision flag so far. -/
abbrev Canvas := Display × Bool

/-- One sprite bit: the new pixel is `old XOR bit`; an old 1 under a 1 bit is a collision (R151). -/
def drawBit (r : Fin Config.screenHeight) (c : Fin Config.screenWidth) (bit : Bool) (p : Canvas) : Canvas :=
  (setPixel p.1 r c (pixel p.1 r c ^^ bit), p.2 || (pixel p.1 r c && bit))

/-- One sprite row: the eight bits of its byte, the most significant first (R151). -/
def drawRow (a : Byte) (r : Fin Config.screenHeight) (sprite : Byte) (p : Canvas) : Canvas :=
  (List.range 8).foldl (fun q i => drawBit r (targetCol a i) (sprite.getLsbD (7 - i)) q) p

/-- The rows of a sprite, from the one numbered `row` on (R151). -/
def drawRows (a b : Byte) (row : Nat) : List Byte → Canvas → Canvas
  | [], p => p
  | sprite :: rest, p => drawRows a b (row + 1) rest (drawRow a (targetRow b row) sprite p)

/-- The whole sprite drawn on a display with no collision yet. -/
def drawSprite (a b : Byte) (sprite : List Byte) (d : Display) : Canvas := drawRows a b 0 sprite (d, false)

/-- 00E0 `CLS` (R150). -/
def execCls (s : State) : Result := .next (s.setDisp blankDisplay).advance

/-- What Dxyn leaves on the display, and whether a pixel was erased. -/
def State.drawn (s : State) (x y : RegIdx) (n : Nat) : Canvas :=
  drawSprite (s.reg x) (s.reg y) (s.bytesAt s.i.toNat n) s.disp

/-- Dxyn `DRW Vx, Vy, n` (R151): VF is written once, with the collision of the whole sprite. -/
def execDrw (x y : RegIdx) (n : Nat) (s : State) : Result :=
  s.withRangeAtI n ((s.setDisp (s.drawn x y n).1).setReg regF (flagByte (s.drawn x y n).2)).advance

end Sys2Proof.Machine
end

