-- ==== Sys2Proof/Machine/Flow.lean ====
section
/-! DEFINITION. Control transfer (41_flow_control.md R100 to R107) and the unmatched opcode (40_step_cycle.md R95). -/

namespace Sys2Proof.Machine

/-- 00EE `RET` (R100): pop the return address into pc. -/
def execRet (s : State) : Result :=
  match s.pop with
  | some (a, t) => .next (t.setPc a)
  | none => raise .stackUnderflow

/-- 1nnn `JP addr` (R101). -/
def execJp (nnn : Addr12) (s : State) : Result := .next (s.setPc (addrOperand nnn))

/-- 2nnn `CALL addr` (R102): push pc + 2, then jump. -/
def execCall (nnn : Addr12) (s : State) : Result :=
  match s.push (s.pc + 2#16) with
  | some t => .next (t.setPc (addrOperand nnn))
  | none => raise .stackOverflow

/-- 3xkk `SE Vx, byte` (R103). -/
def execSeByte (x : RegIdx) (kk : Byte) (s : State) : Result := .next (s.skipIf (s.reg x == kk))

/-- 4xkk `SNE Vx, byte` (R104). -/
def execSneByte (x : RegIdx) (kk : Byte) (s : State) : Result := .next (s.skipIf (s.reg x != kk))

/-- 5xy0 `SE Vx, Vy` (R105). -/
def execSeReg (x y : RegIdx) (s : State) : Result := .next (s.skipIf (s.reg x == s.reg y))

/-- 9xy0 `SNE Vx, Vy` (R106). -/
def execSneReg (x y : RegIdx) (s : State) : Result := .next (s.skipIf (s.reg x != s.reg y))

/-- Bnnn `JP V0, addr` (R107): the base is always V0, and the sum is not masked. -/
def execJpV0 (nnn : Addr12) (s : State) : Result := .next (s.setPc (s.regWord 0 + addrOperand nnn))

/-- An opcode that matches no row (40_step_cycle.md R95): "a documented no-op that still must advance PC by 2". -/
def execUnmatched (s : State) : Result := .next s.advance

end Sys2Proof.Machine
end

