-- ==== Sys2Proof/Machine/Index.lean ====
section
/-! DEFINITION. The index register and the memory instructions (43_index_memory.md R140 to R145). The addresses are
I + k (R146); I is never modified by a load or a store. -/

namespace Sys2Proof.Machine

/-- Annn `LD I, addr` (R140). -/
def execLdI (nnn : Addr12) (s : State) : Result := .next (s.setI (addrOperand nnn)).advance

/-- Fx1E `ADD I, Vx` (R141): modulo 65536, no flag, no fault. -/
def execAddI (x : RegIdx) (s : State) : Result := .next (s.setI (s.i + s.regWord x)).advance

/-- Fx29 `LD F, Vx` (R142). -/
def execLdF (x : RegIdx) (s : State) : Result := .next (s.setI (glyphAddress (s.reg x))).advance

/-- Fx33 `LD B, Vx` (R143): the three decimal digits of Vx at I, I + 1, I + 2. -/
def execLdB (x : RegIdx) (s : State) : Result :=
  s.withRangeAtI 3 (s.store s.i.toNat (decimalDigits (s.reg x))).advance

/-- Fx55 `LD [I], Vx` (R144): V0 to Vx stored from I upward. -/
def execLdMemVx (x : RegIdx) (s : State) : Result :=
  s.withRangeAtI (x.val + 1) (s.store s.i.toNat (s.regsUpTo x)).advance

/-- Fx65 `LD Vx, [I]` (R145): V0 to Vx loaded from I upward. -/
def execLdVxMem (x : RegIdx) (s : State) : Result :=
  s.withRangeAtI (x.val + 1) ({ s with v := fillRegs 0 s.v (s.bytesAt s.i.toNat (x.val + 1)) } : State).advance

end Sys2Proof.Machine
end

