-- ==== Sys2Proof/Machine/Keypad.lean ====
section
/-! DEFINITION. The key and timer instructions (45_keypad_timers.md R160 to R165). -/

namespace Sys2Proof.Machine

/-- Ex9E `SKP Vx` (R160). -/
def execSkp (x : RegIdx) (s : State) : Result := .next (s.skipIf (keyPressed s.keys (s.reg x)))

/-- ExA1 `SKNP Vx` (R161). -/
def execSknp (x : RegIdx) (s : State) : Result := .next (s.skipIf (!keyPressed s.keys (s.reg x)))

/-- Fx0A `LD Vx, K` (R163): with no key pressed the step completes and nothing changes, pc included; otherwise Vx
receives a pressed key. -/
def execLdVxK (x : RegIdx) (s : State) : Result :=
  if s.keys = 0x0000#16 then .next s else .next (s.setReg x (keyByte (keyPick s.keys))).advance

/-- Fx07 `LD Vx, DT` (R162). -/
def execLdVxDt (x : RegIdx) (s : State) : Result := .next (s.setReg x s.dt).advance

/-- Fx15 `LD DT, Vx` (R164). -/
def execLdDtVx (x : RegIdx) (s : State) : Result := .next (s.setDt (s.reg x)).advance

/-- Fx18 `LD ST, Vx` (R165). -/
def execLdStVx (x : RegIdx) (s : State) : Result := .next (s.setSt (s.reg x)).advance

end Sys2Proof.Machine
end

