-- ==== Sys2Proof/Machine/Step.lean ====
section
/-! DEFINITION. One step: the STEP of 40_step_cycle.md R91, with the random bytes the state holds (log 1). -/

namespace Sys2Proof.Machine

/-- Fetch, decode, execute (R91): a fetch out of bounds raises (R92), an opcode that matches no row is a no-operation
(R95). -/
def step (s : State) : Host.Outcome State Fault Refusal :=
  match s.fetch with
  | none => raise .memoryAccessViolation
  | some w =>
    match decodeWord w with
    | some i => exec i s
    | none => execUnmatched s

/-- The state with a table row's word stored, in memory order, where the next step fetches (log 14). -/
def State.withFetchWord (s : State) (nbits w : Nat) : State := s.placeOpcode (tableWord nbits w)

end Sys2Proof.Machine
end

