-- ==== Sys2Proof/Machine/Commands.lean ====
section
/-! DEFINITION. The host agent (46_host_commands.md): its seven commands, each one atomic move (R170, 20_memory.md R59),
the replies and the status codes (R178). The commands are not instructions; a run of the whole hardware is a list of
them, in any order (R170, 70_reset_and_hazards.md R216). -/

namespace Sys2Proof.Machine

/-- The status of a STEP or a LOAD (R178). -/
inductive Status where
  | ok
  | memoryAccessViolation
  | stackOverflow
  | stackUnderflow
  | romTooLarge
deriving DecidableEq, Repr

/-- The numeric codes of R178 (the spec's own choice, D6, log 15). -/
def Status.code : Status → Nat
  | .ok => 0
  | .memoryAccessViolation => 1
  | .stackOverflow => 2
  | .stackUnderflow => 3
  | .romTooLarge => 4

/-- The status that reports a fault (60_exceptions.md R190). -/
def Fault.status : Fault → Status
  | .memoryAccessViolation => .memoryAccessViolation
  | .stackOverflow => .stackOverflow
  | .stackUnderflow => .stackUnderflow

/-- The seven commands (R170). -/
inductive Command where
  /-- RESET (R171). -/
  | reset
  /-- LOAD(bytes) (R172). -/
  | load (bytes : List Byte)
  /-- SET_KEYS(k) (R173). -/
  | setKeys (k : Word)
  /-- STEP(rnd) (R174). -/
  | step (rnd : Byte)
  /-- TICK (R175). -/
  | tick
  /-- READ_DISPLAY (R176). -/
  | readDisplay
  /-- READ_SOUND (R177). -/
  | readSound
deriving DecidableEq, Repr

/-- What the host receives (R170, column "outputs"). -/
inductive Reply where
  /-- No output: RESET, SET_KEYS, TICK. -/
  | none
  /-- The status of a LOAD or a STEP. -/
  | status (c : Status)
  /-- The 2048 pixels, element r × 64 + c the pixel in row r and column c (10_state.md R33). -/
  | pixels (bits : List Bool)
  /-- SOUND. -/
  | sound (on : Bool)
  /-- A STEP the model refuses. No step is refused; this constructor makes `issue` total. -/
  | refused (why : Refusal)
deriving DecidableEq, Repr

/-- One timer at a TICK: "decremented by 1, floored at 0" (R175). -/
def tickTimer (b : Byte) : Byte := if b = 0#8 then 0#8 else b - 1#8

/-- TICK (R175): both timers, independently. -/
def State.tick (s : State) : State := (s.setDt (tickTimer s.dt)).setSt (tickTimer s.st)

/-- `SOUND = 1 if ST > 0 else 0` (R177). -/
def State.sound (s : State) : Bool := decide (s.st.toNat > 0)

/-- The display in flat, row-major order (10_state.md R33, D18). -/
def State.flatDisplay (s : State) : List Bool := s.disp.toList.flatMap Vector.toList

/-- LOAD (R172): rejected whole above 3584 bytes, else copied to 0x200 upward; nothing else changes. -/
def State.load (s : State) (bytes : List Byte) : State × Reply :=
  if bytes.length > Config.romMax then (s, .status .romTooLarge)
  else (s.store Config.programStart bytes, .status .ok)

/-- STEP(rnd) (R174): one step with `rnd` as its random byte, used only by Cxkk and ignored otherwise. A fault reports its
status and leaves the state as it was (60_exceptions.md R195). -/
def State.stepWith (s : State) (rnd : Byte) : State × Reply :=
  match Sys2Proof.Machine.step { s with rndIn := [rnd] } with
  | .next t => ({ t with rndIn := s.rndIn }, .status .ok)
  | .fault f => (s, .status f.status)
  | .refused why => (s, .refused why)

/-- One command, complete (R170 to R177). RESET sets every piece of the core's state; the model's two fields for the
host's random generator, which is outside the core (10_state.md R38), keep their place in its sequence (log 1). `p` are
the open parameters `FONT` and `MEM_INIT` of the machine (00_scope.md R7), on which only RESET depends. -/
def issue (p : Config.Params) (c : Command) (s : State) : State × Reply :=
  match c with
  | .reset => ({ State.resetWith p with rndIn := s.rndIn, rndIndex := s.rndIndex }, .none)
  | .load bytes => s.load bytes
  | .setKeys k => (s.setKeys k, .none)
  | .step rnd => s.stepWith rnd
  | .tick => (s.tick, .none)
  | .readDisplay => (s, .pixels s.flatDisplay)
  | .readSound => (s, .sound s.sound)

/-- A sequence of commands, and the replies in order. -/
def issueAll (p : Config.Params) : List Command → State → State × List Reply
  | [], s => (s, [])
  | c :: cs, s =>
    ((issueAll p cs (issue p c s).1).1, (issue p c s).2 :: (issueAll p cs (issue p c s).1).2)

end Sys2Proof.Machine
end

