-- ==== Sys2Proof/Safety.lean ====
section
/-! DEFINITION. What claims are stated in: safe states, parked programs, the invariant of the machine, frames (what two
states have in common), encodings and reports. -/

namespace Sys2Proof.Machine

/-- A run of `k` steps from `s` meets no fault and no refusal. -/
def SafeFor (k : Nat) (s : State) : Prop := ∃ t, Host.Core.run Sys2Proof.core k s = .next t

/-- A run from `s` never meets a fault or a refusal. -/
def Safe (s : State) : Prop := ∀ k, SafeFor k s

/-- The program has parked: the opcode at pc is a jump to pc itself (70_reset_and_hazards.md R217; a definition the spec
offers, D31, log 17). -/
def State.parked (s : State) : Prop := ∃ w nnn, s.fetch = some w ∧ decodeWord w = some (.jp nnn) ∧ addrOperand nnn = s.pc

/-- The largest value pc can hold after a step (10_state.md R27). -/
def pcMax : Nat := 0x10FE

/-- The largest return address a call can push (R27). -/
def returnMax : Nat := 0x1000

/-- pc is within the bound of R27, and so is every live return address. -/
def State.pcBounded (s : State) : Prop :=
  s.pc.toNat ≤ pcMax ∧ ∀ j : Fin Config.stackDepth, j.val < s.sp.val → s.stack[j].toNat ≤ returnMax

/-- The invariant of the machine: the memory is in its one form, and pc and the live return addresses are bounded. (That
SP is at most 16 is its type.) -/
def State.Inv (s : State) : Prop := s.mem.wf ∧ s.pcBounded

/-! ## Frames: what an instruction leaves unchanged (00_scope.md R11; the spec's decision D9, log 10) -/

/-- Every general register outside `P` is unchanged. -/
def SameRegsExcept (P : RegIdx → Prop) (s t : State) : Prop := ∀ r, ¬ P r → t.reg r = s.reg r

/-- Every general register is unchanged, VF among them. -/
def SameRegs (s t : State) : Prop := ∀ r, t.reg r = s.reg r

/-- The call stack is unchanged: its count and all its slots. -/
def SameStack (s t : State) : Prop := t.sp = s.sp ∧ t.stack = s.stack

/-- Both timers are unchanged. -/
def SameTimers (s t : State) : Prop := t.dt = s.dt ∧ t.st = s.st

/-- Every byte of memory reads as before. -/
def SameMemory (s t : State) : Prop := ∀ a, t.byteAt a = s.byteAt a

/-- Every byte of memory outside the `len` bytes from `base` upward reads as before. -/
def SameMemoryOutside (base len : Nat) (s t : State) : Prop :=
  ∀ a, (a < base ∨ base + len ≤ a) → t.byteAt a = s.byteAt a

/-- Every pixel is unchanged. -/
def SameDisplay (s t : State) : Prop := ∀ r c, pixel t.disp r c = pixel s.disp r c

/-- The key latch is unchanged, and no random byte is consumed. -/
def SameInputs (s t : State) : Prop := t.keys = s.keys ∧ t.rndIn = s.rndIn ∧ t.rndIndex = s.rndIndex

/-- The sequential advance `pc <- (pc + 2) mod 65536` (40_step_cycle.md R93). -/
def AdvancesBy (k : Nat) (s t : State) : Prop := t.pc.toNat = (s.pc.toNat + k) % 65536

/-! ## Encodings and reports -/

/-- The words that `(w AND mask) = value` selects, and no others, decode to the instruction `build` makes of the word's
fields (30_encoding.md R75). -/
def EncodedAs (mask value : Word) (build : Word → Instr) : Prop :=
  ∀ w, w &&& mask = value ↔ decodeWord w = some (build w)

/-- A STEP that fetches the instruction `i` reports `c` and leaves the whole state as it was. -/
def StepReportsAndKeeps (i : Instr) (c : Status) (s : State) : Prop :=
  ∀ p w rnd, s.fetch = some w → decodeWord w = some i → issue p (.step rnd) s = (s, .status c)

/-- A function of the next state, faults and refusals left as they are. -/
def mapNext (f : State → State) : Result → Result
  | .next t => .next (f t)
  | .fault r => .fault r
  | .refused r => .refused r

/-! ## Sprites -/

/-- The sprite of n rows at (V[x], V[y]) has a 1 bit over the pixel in row r and column c (44_display.md R151): some row
and some bit of it fall there, each coordinate taken modulo the screen size. -/
def SpriteCovers (s : State) (x y : RegIdx) (n : Nat) (r : Fin Config.screenHeight) (c : Fin Config.screenWidth) : Prop :=
  ∃ row i, row < n ∧ i < 8 ∧ ((s.reg y).toNat + row) % 32 = r.val ∧ ((s.reg x).toNat + i) % 64 = c.val ∧
    (s.byteAt (s.i.toNat + row)).getLsbD (7 - i) = true

end Sys2Proof.Machine
end

