-- ==== Sys2Proof/Certificates/Slice0/Obligations.lean ====
section
/-! DEFINITION. The statements for the provers. Each docstring names the rules of spec/ it formalises; where a clause rests
on a decision of the spec's own or of the model's, it says so and names the log entry. -/

open Sys2Proof Sys2Proof.Machine

/-! ## Encoding and fetching -/

/-- 30_encoding.md R71, R72: the nibbles of the two bytes of an opcode are its fields, and `nnn` and `kk` are made of
them. -/
def Obligations.TwoBytesGiveTheSixFields : Prop :=
  ∀ first second : Byte,
    (fieldOp (opcodeOfBytes first second)).toNat = first.toNat / 16 ∧
    (fieldX (opcodeOfBytes first second)).val = first.toNat % 16 ∧
    (fieldY (opcodeOfBytes first second)).val = second.toNat / 16 ∧
    (fieldN (opcodeOfBytes first second)).toNat = second.toNat % 16 ∧
    (fieldNnn (opcodeOfBytes first second)).toNat =
      (fieldX (opcodeOfBytes first second)).val * 256 + (fieldY (opcodeOfBytes first second)).val * 16 +
        (fieldN (opcodeOfBytes first second)).toNat ∧
    (fieldKk (opcodeOfBytes first second)).toNat =
      (fieldY (opcodeOfBytes first second)).val * 16 + (fieldN (opcodeOfBytes first second)).toNat

/-- 20_memory.md R51: the fetch is big-endian, so `MEM[pc]` holds `op` and `x`, and `MEM[pc + 1]` holds `kk`. -/
def Obligations.FetchIsBigEndian : Prop :=
  ∀ s : State, s.pc.toNat ≤ 0x0FFE →
    ∃ w, s.fetch = some w ∧
      w.toNat = (s.byteAt s.pc.toNat).toNat * 256 + (s.byteAt (s.pc.toNat + 1)).toNat ∧
      (fieldOp w).toNat * 16 + (fieldX w).val = (s.byteAt s.pc.toNat).toNat ∧
      (fieldY w).val * 16 + (fieldN w).toNat = (s.byteAt (s.pc.toNat + 1)).toNat ∧
      fieldKk w = s.byteAt (s.pc.toNat + 1)

/-- 30_encoding.md R76: the decoder follows the opcode map row for row. An opcode that a row selects decodes to an
instruction of that row, and an opcode that decodes is selected by its instruction's row. -/
def Obligations.DecoderFollowsTheOpcodeMap : Prop :=
  ∀ w : Word,
    (∀ r ∈ opcodeRows, r.selects w = true → ∃ i, decodeWord w = some i ∧ i.row = r) ∧
    (∀ i, decodeWord w = some i → i.row ∈ opcodeRows ∧ i.row.selects w = true)

/-- 30_encoding.md section 2 ("pairwise disjoint", an inference the spec marks as derived): no opcode is selected by two
rows, so their order does not matter. -/
def Obligations.NoOpcodeMatchesTwoRows : Prop :=
  ∀ w : Word, ∀ r ∈ opcodeRows, ∀ r' ∈ opcodeRows, r.selects w = true → r'.selects w = true → r = r'

/-- 30_encoding.md section 3 (an inference the spec marks as derived): the unmatched opcodes, family by family. -/
def Obligations.UnmatchedOpcodesByFamily : Prop :=
  ∀ w : Word, decodeWord w = none ↔
    (w.toNat / 4096 = 0 ∧ w.toNat ≠ 0x00E0 ∧ w.toNat ≠ 0x00EE) ∨
    (w.toNat / 4096 = 5 ∧ w.toNat % 16 ≠ 0) ∨
    (w.toNat / 4096 = 8 ∧ 8 ≤ w.toNat % 16 ∧ w.toNat % 16 ≠ 0xE) ∨
    (w.toNat / 4096 = 9 ∧ w.toNat % 16 ≠ 0) ∨
    (w.toNat / 4096 = 0xE ∧ w.toNat % 256 ≠ 0x9E ∧ w.toNat % 256 ≠ 0xA1) ∨
    (w.toNat / 4096 = 0xF ∧ w.toNat % 256 ∉ [0x07, 0x0A, 0x15, 0x18, 0x1E, 0x29, 0x33, 0x55, 0x65])

/-- Decoding the bytes of a well-formed instruction gives that instruction and the bytes after it: no bit of an operand is
dropped (30_encoding.md sections 1 and 2). -/
def Obligations.DecodeOfEncodeIsTheInstruction : Prop :=
  ∀ (i : Instr) (rest : List Byte), i.WellFormed → decode (encodeBytes i ++ rest) = .instr i rest

/-- The other direction: an opcode that decodes is the encoding of the well-formed instruction it decodes to. -/
def Obligations.EncodeOfDecodeIsTheOpcode : Prop :=
  ∀ (w : Word) (i : Instr), decodeWord w = some i → i.WellFormed ∧ encode i = w

/-- Words written out from the patterns of 30_encoding.md section 2, one or more of each of the sixteen families (the value
of `op`), decode to the instructions they stand for; two unmatched words decode to none. -/
def Obligations.SampleWordsDecodeAsWritten : Prop :=
  decodeTableWord 16 0x00E0 = some .cls ∧ decodeTableWord 16 0x00EE = some .ret ∧
  decodeTableWord 16 0x1ABC = some (.jp 0xABC) ∧ decodeTableWord 16 0x3A42 = some (.seByte 10 0x42) ∧
  decodeTableWord 16 0x8125 = some (.sub 1 2) ∧ decodeTableWord 16 0x834E = some (.shl 3 4) ∧
  decodeTableWord 16 0x2ABC = some (.call 0xABC) ∧ decodeTableWord 16 0x4A42 = some (.sneByte 10 0x42) ∧
  decodeTableWord 16 0x5AB0 = some (.seReg 10 11) ∧ decodeTableWord 16 0x6005 = some (.ldByte 0 5) ∧
  decodeTableWord 16 0x7402 = some (.addByte 4 2) ∧ decodeTableWord 16 0x9AB0 = some (.sneReg 10 11) ∧
  decodeTableWord 16 0xBFFF = some (.jpV0 0xFFF) ∧ decodeTableWord 16 0xC30F = some (.rnd 3 0x0F) ∧
  decodeTableWord 16 0xA2F0 = some (.ldI 0x2F0) ∧ decodeTableWord 16 0xD125 = some (.drw 1 2 5) ∧
  decodeTableWord 16 0xE19E = some (.skp 1) ∧ decodeTableWord 16 0xF265 = some (.ldVxMem 2) ∧
  decodeTableWord 16 0x5AB1 = none ∧ decodeTableWord 16 0x0123 = none

/-! ## The step -/

/-- 40_step_cycle.md section 2 and 46_host_commands.md section 1: when the opcode at pc decodes to an instruction, the step
is the instruction's meaning at that very state, with nothing done around it; and the host's STEP(rnd) reports OK and leaves
the instruction's next state. The byte rnd is what Cxkk draws, and matters to no other instruction (the spec's decision
D26); that STEP restores the model's own list of random bytes is the model's choice (log 1). -/
def Obligations.StepRunsTheDecodedInstruction : Prop :=
  ∀ (s : State) (i : Instr), s.pc.toNat ≤ 0x0FFE →
    decode [s.byteAt s.pc.toNat, s.byteAt (s.pc.toNat + 1)] = .instr i [] →
    step s = exec i s ∧
    (∀ p rnd t, exec i { s with rndIn := [rnd] } = .next t →
      issue p (.step rnd) s = ({ t with rndIn := s.rndIn }, .status .ok)) ∧
    (∀ p rnd t, (∀ x kk, i ≠ .rnd x kk) → exec i s = .next t → issue p (.step rnd) s = (t, .status .ok))

/-- 40_step_cycle.md R95: an opcode that matches no row changes nothing except pc, which advances by 2, and reports OK. -/
def Obligations.UnmatchedOpcodeOnlyAdvances : Prop :=
  ∀ (s : State) (w : Word), s.fetch = some w → (∀ r ∈ opcodeRows, r.selects w = false) →
    step s = .next { s with pc := BitVec.ofNat 16 (s.pc.toNat + 2) } ∧
    ∀ p rnd, issue p (.step rnd) s = ({ s with pc := BitVec.ofNat 16 (s.pc.toNat + 2) }, .status .ok)

/-- 40_step_cycle.md section 3 ("Exactly one status"): no instruction and no step is refused. -/
def Obligations.NothingIsRefused : Prop :=
  (∀ i s r, exec i s ≠ .refused r) ∧ ∀ s r, step s ≠ .refused r

/-- 60_exceptions.md section 2 (the spec's decision D4, log 7): a STEP or a LOAD that reports a status other than OK
leaves the whole state as it was. -/
def Obligations.FailingCommandChangesNothing : Prop :=
  ∀ (p : Config.Params) (c : Command) (s : State) (e : Status),
    (issue p c s).2 = .status e → e ≠ .ok → (issue p c s).1 = s

/-- 60_exceptions.md section 2 (the spec's decision D5, log 7): whether a step faults, and how, depends neither on the key
snapshot nor on the random input. -/
def Obligations.FaultsDoNotDependOnInputs : Prop :=
  ∀ (s : State) (f : Fault) (k : Word) (bs : List Byte) (j : Nat), step s = .fault f →
    step { s with keys := k, rndIn := bs, rndIndex := j } = .fault f

/-- 60_exceptions.md R192, R193: StackOverflow is raised by 2nnn iff the stack holds 16 entries, StackUnderflow by 00EE
iff it is empty; the status goes to the host, and no entry is overwritten. -/
def Obligations.StackFaultsExactly : Prop :=
  ∀ (i : Instr) (s : State),
    (exec i s = .fault .stackOverflow ↔ (∃ nnn, i = .call nnn) ∧ s.sp.val = 16) ∧
    (exec i s = .fault .stackUnderflow ↔ i = .ret ∧ s.sp.val = 0) ∧
    (exec i s = .fault .stackOverflow → StepReportsAndKeeps i .stackOverflow s) ∧
    (exec i s = .fault .stackUnderflow → StepReportsAndKeeps i .stackUnderflow s)

/-- 60_exceptions.md section 1 (the spec's decisions D3 and D20, log 8): when an instruction and when a step raise
MemoryAccessViolation, the fetch beyond 0x0FFE among the cases; a STEP command that meets such a step reports that status
and leaves the whole state as it was (section 2, D4, log 7). -/
def Obligations.MemoryFaultsExactly : Prop :=
  (∀ (i : Instr) (s : State), exec i s = .fault .memoryAccessViolation ↔
    (∃ x y n, i = .drw x y n ∧ 1 ≤ n ∧ 0x0FFF < s.i.toNat + n - 1) ∨
    (∃ x, i = .ldB x ∧ 0x0FFF < s.i.toNat + 2) ∨
    (∃ x, i = .ldMemVx x ∧ 0x0FFF < s.i.toNat + x.val) ∨
    (∃ x, i = .ldVxMem x ∧ 0x0FFF < s.i.toNat + x.val)) ∧
  (∀ s : State, step s = .fault .memoryAccessViolation ↔
    0x0FFE < s.pc.toNat ∨
    ∃ w i, s.fetch = some w ∧ decodeWord w = some i ∧ exec i s = .fault .memoryAccessViolation) ∧
  (∀ (p : Config.Params) (s : State) (rnd : Byte), step s = .fault .memoryAccessViolation →
    issue p (.step rnd) s = (s, .status .memoryAccessViolation))

/-! ## Control transfer -/

/-- 41_flow_control.md R100: RET pops the return address into pc as it is; on an empty stack it raises and nothing
changes. -/
def Obligations.ReturnPopsTheAddress : Prop :=
  EncodedAs 0xFFFF 0x00EE (fun _ => .ret) ∧
  ∀ s : State,
    (∀ h : 0 < s.sp.val, ∃ t, exec .ret s = .next t ∧ t.sp.val = s.sp.val - 1 ∧
      t.pc = s.stack[s.sp.val - 1] ∧ t.stack = s.stack ∧ SameRegs s t) ∧
    (exec .ret s = .fault .stackUnderflow ↔ s.sp.val = 0) ∧
    (s.sp.val = 0 → StepReportsAndKeeps .ret .stackUnderflow s)

/-- 41_flow_control.md R101: JP sets pc to nnn; a jump to itself leaves the whole state unchanged; a jump to 0xFFF succeeds
and the next fetch faults. -/
def Obligations.JumpSetsPc : Prop :=
  EncodedAs 0xF000 0x1000 (fun w => .jp (fieldNnn w)) ∧
  ∀ (nnn : Addr12) (s : State), ∃ t, exec (.jp nnn) s = .next t ∧ t.pc.toNat = nnn.toNat ∧ SameRegs s t ∧
    (nnn.toNat = s.pc.toNat → t = s) ∧ (nnn.toNat = 0xFFF → step t = .fault .memoryAccessViolation)

/-- 41_flow_control.md R102: CALL pushes pc + 2, in the one slot it writes, and jumps; on a full stack it raises and nothing
changes. -/
def Obligations.CallPushesAndJumps : Prop :=
  EncodedAs 0xF000 0x2000 (fun w => .call (fieldNnn w)) ∧
  ∀ (nnn : Addr12) (s : State),
    (∀ h : s.sp.val < 16, ∃ t, exec (.call nnn) s = .next t ∧ t.pc.toNat = nnn.toNat ∧
      t.sp.val = s.sp.val + 1 ∧ (t.stack[s.sp.val]).toNat = (s.pc.toNat + 2) % 65536 ∧
      (∀ j : Fin Config.stackDepth, j.val ≠ s.sp.val → t.stack[j] = s.stack[j]) ∧ SameRegs s t) ∧
    (exec (.call nnn) s = .fault .stackOverflow ↔ s.sp.val = 16) ∧
    (s.sp.val = 16 → StepReportsAndKeeps (.call nnn) .stackOverflow s)

/-- 41_flow_control.md R103 to R106: the four register skips advance pc by 4 when their condition holds, by 2 otherwise,
and write no register; 5xyn and 9xyn with n ≠ 0 are unmatched. -/
def Obligations.RegisterSkipsAdvanceByFourOrTwo : Prop :=
  EncodedAs 0xF000 0x3000 (fun w => .seByte (fieldX w) (fieldKk w)) ∧
  EncodedAs 0xF000 0x4000 (fun w => .sneByte (fieldX w) (fieldKk w)) ∧
  EncodedAs 0xF00F 0x5000 (fun w => .seReg (fieldX w) (fieldY w)) ∧
  EncodedAs 0xF00F 0x9000 (fun w => .sneReg (fieldX w) (fieldY w)) ∧
  (∀ w, (fieldOp w = 5#4 ∨ fieldOp w = 9#4) → fieldN w ≠ 0#4 → decodeWord w = none) ∧
  ∀ (x y : RegIdx) (kk : Byte) (s : State),
    (∃ t, exec (.seByte x kk) s = .next t ∧ AdvancesBy (if s.reg x = kk then 4 else 2) s t ∧ SameRegs s t) ∧
    (∃ t, exec (.sneByte x kk) s = .next t ∧ AdvancesBy (if s.reg x ≠ kk then 4 else 2) s t ∧ SameRegs s t) ∧
    (∃ t, exec (.seReg x y) s = .next t ∧ AdvancesBy (if s.reg x = s.reg y then 4 else 2) s t ∧ SameRegs s t) ∧
    (∃ t, exec (.sneReg x y) s = .next t ∧ AdvancesBy (if s.reg x ≠ s.reg y then 4 else 2) s t ∧ SameRegs s t)

/-- 41_flow_control.md, Bnnn (the spec's decision D23, log 11): the target is V0 + nnn, never masked to 12 bits, so it is
the exact sum. -/
def Obligations.IndexedJumpAddsV0 : Prop :=
  EncodedAs 0xF000 0xB000 (fun w => .jpV0 (fieldNnn w)) ∧
  ∀ (nnn : Addr12) (s : State), ∃ t, exec (.jpV0 nnn) s = .next t ∧
    t.pc.toNat = (s.reg 0).toNat + nnn.toNat ∧ SameRegs s t

/-- 41_flow_control.md (the scenario of 95_test_vectors.md S9): a return from a call comes back to the instruction after
the call, with the stack as deep as before, whatever was done between that left the stack as the call left it. -/
def Obligations.ReturnComesBackAfterTheCall : Prop :=
  ∀ (nnn : Addr12) (s t u : State), exec (.call nnn) s = .next t → u.sp = t.sp → u.stack = t.stack →
    ∃ v, exec .ret u = .next v ∧ v.pc.toNat = (s.pc.toNat + 2) % 65536 ∧ v.sp = s.sp ∧
      ∀ j : Fin Config.stackDepth, j.val < s.sp.val → v.stack[j] = s.stack[j]

/-- The frame of the control transfers that do not use the call stack (the key skips among them): everything but pc is
unchanged (00_scope.md section 6, the spec's decision D9, log 10). -/
def Obligations.JumpsAndSkipsChangeOnlyPc : Prop :=
  ∀ (i : Instr) (s t : State),
    ((∃ nnn, i = .jp nnn ∨ i = .jpV0 nnn) ∨ (∃ x kk, i = .seByte x kk ∨ i = .sneByte x kk) ∨
      (∃ x y, i = .seReg x y ∨ i = .sneReg x y) ∨ (∃ x, i = .skp x ∨ i = .sknp x)) →
    exec i s = .next t →
    SameRegs s t ∧ t.i = s.i ∧ SameStack s t ∧ SameTimers s t ∧ SameMemory s t ∧ SameDisplay s t ∧ SameInputs s t

/-- The frame of CALL and RET: everything but pc, SP and, for CALL, the slot it pushes to is unchanged (00_scope.md
section 6, the spec's decision D9, log 10). -/
def Obligations.CallAndReturnChangeOnlyPcAndStack : Prop :=
  ∀ (i : Instr) (s t : State), (i = .ret ∨ ∃ nnn, i = .call nnn) → exec i s = .next t →
    SameRegs s t ∧ t.i = s.i ∧ SameTimers s t ∧ SameMemory s t ∧ SameDisplay s t ∧ SameInputs s t ∧
    ∀ j : Fin Config.stackDepth, (i = .ret ∨ j.val ≠ s.sp.val) → t.stack[j] = s.stack[j]

/-! ## Loads, arithmetic, logic, shifts, random -/

/-- 42_load_alu.md R120, R121, R122: load immediate, add immediate modulo 256 with no flag, copy. For x = 0xF the value is
written to VF as an ordinary destination; a copy of a register to itself changes nothing but pc. -/
def Obligations.LoadsAndAddImmediateWriteVx : Prop :=
  EncodedAs 0xF000 0x6000 (fun w => .ldByte (fieldX w) (fieldKk w)) ∧
  EncodedAs 0xF000 0x7000 (fun w => .addByte (fieldX w) (fieldKk w)) ∧
  EncodedAs 0xF00F 0x8000 (fun w => .ldReg (fieldX w) (fieldY w)) ∧
  ∀ (x y : RegIdx) (kk : Byte) (s : State),
    (∃ t, exec (.ldByte x kk) s = .next t ∧ t.reg x = kk ∧ (x ≠ regF → t.reg regF = s.reg regF) ∧
      AdvancesBy 2 s t) ∧
    (∃ t, exec (.addByte x kk) s = .next t ∧ (t.reg x).toNat = ((s.reg x).toNat + kk.toNat) % 256 ∧
      (x ≠ regF → t.reg regF = s.reg regF) ∧ AdvancesBy 2 s t) ∧
    (∃ t, exec (.ldReg x y) s = .next t ∧ t.reg x = s.reg y ∧ (y ≠ x → t.reg y = s.reg y) ∧
      (x ≠ regF → t.reg regF = s.reg regF) ∧ (x = y → { t with pc := s.pc } = s) ∧ AdvancesBy 2 s t)

/-- 42_load_alu.md section 3 (VF left alone: the spec's decision D9, log 10): OR, AND and XOR bit by bit. -/
def Obligations.LogicIsBitwiseAndLeavesVF : Prop :=
  ∀ (x y : RegIdx) (s : State),
    (∃ t, exec (.orReg x y) s = .next t ∧
      (∀ k, (t.reg x).getLsbD k = ((s.reg x).getLsbD k || (s.reg y).getLsbD k)) ∧
      (x ≠ regF → t.reg regF = s.reg regF) ∧ AdvancesBy 2 s t) ∧
    (∃ t, exec (.andReg x y) s = .next t ∧
      (∀ k, (t.reg x).getLsbD k = ((s.reg x).getLsbD k && (s.reg y).getLsbD k)) ∧
      (x ≠ regF → t.reg regF = s.reg regF) ∧ AdvancesBy 2 s t) ∧
    (∃ t, exec (.xorReg x y) s = .next t ∧
      (∀ k, (t.reg x).getLsbD k = ((s.reg x).getLsbD k ^^ (s.reg y).getLsbD k)) ∧
      (x ≠ regF → t.reg regF = s.reg regF) ∧ AdvancesBy 2 s t)

/-- 42_load_alu.md section 4 and the property S1 of 95_test_vectors.md; for x = 0xF the result remains in VF (the spec's
decision D8, log 9): ADD Vx, Vy with the carry in VF. -/
def Obligations.AddSetsSumAndCarry : Prop :=
  ∀ (x y : RegIdx) (s : State), ∃ t, exec (.addReg x y) s = .next t ∧
    (t.reg x).toNat = ((s.reg x).toNat + (s.reg y).toNat) % 256 ∧
    (x ≠ regF → (t.reg regF).toNat = if (s.reg x).toNat + (s.reg y).toNat > 255 then 1 else 0) ∧
    AdvancesBy 2 s t

/-- 42_load_alu.md sections 1 and 4 and the property S2 of 95_test_vectors.md; for x = 0xF the result remains in VF (the
spec's decision D8, log 9): SUB and SUBN, the flag a strict comparison, so 0 for equal operands. -/
def Obligations.SubtractionsSetDifferenceAndStrictFlag : Prop :=
  ∀ (x y : RegIdx) (s : State),
    (∃ t, exec (.sub x y) s = .next t ∧
      ((t.reg x).toNat : Int) = ((s.reg x).toNat - (s.reg y).toNat : Int) % 256 ∧
      (x ≠ regF → (t.reg regF).toNat = if (s.reg x).toNat > (s.reg y).toNat then 1 else 0) ∧ AdvancesBy 2 s t) ∧
    (∃ t, exec (.subn x y) s = .next t ∧
      ((t.reg x).toNat : Int) = ((s.reg y).toNat - (s.reg x).toNat : Int) % 256 ∧
      (x ≠ regF → (t.reg regF).toNat = if (s.reg y).toNat > (s.reg x).toNat then 1 else 0) ∧ AdvancesBy 2 s t)

/-- 42_load_alu.md section 4 and the property S3 of 95_test_vectors.md; the shifts act on Vx alone (the spec's decision D9,
log 10), and for x = 0xF the result remains in VF (D8, log 9): SHR and SHL, with the bit shifted out in VF. -/
def Obligations.ShiftsSetResultAndShiftedOutBit : Prop :=
  ∀ (x y : RegIdx) (s : State),
    (∃ t, exec (.shr x y) s = .next t ∧ (t.reg x).toNat = (s.reg x).toNat / 2 ∧
      (x ≠ regF → (t.reg regF).toNat = (s.reg x).toNat % 2) ∧ AdvancesBy 2 s t) ∧
    (∃ t, exec (.shl x y) s = .next t ∧ (t.reg x).toNat = (s.reg x).toNat * 2 % 256 ∧
      (x ≠ regF → (t.reg regF).toNat = (s.reg x).toNat / 128) ∧ AdvancesBy 2 s t)

/-- 42_load_alu.md section 5 (the spec's decision D26, log 1): RND ANDs the random byte with kk. The byte is the model's
next one, which is the host's where the host has supplied one; at a STEP(rnd) it is `rnd`, and nothing else changes. -/
def Obligations.RandomIsTheInputByteMasked : Prop :=
  (∀ (x : RegIdx) (kk : Byte) (s : State), ∃ t, exec (.rnd x kk) s = .next t ∧
    (∀ k, (t.reg x).getLsbD k = (s.randomByte.getLsbD k && kk.getLsbD k)) ∧
    (∀ b rest, s.rndIn = b :: rest → t.reg x = b &&& kk ∧ t.rndIn = rest) ∧ AdvancesBy 2 s t) ∧
  (∀ (p : Config.Params) (x : RegIdx) (kk : Byte) (s : State) (w : Word) (rnd : Byte),
    s.fetch = some w → decodeWord w = some (.rnd x kk) →
    ∃ t, issue p (.step rnd) s = (t, .status .ok) ∧ t.reg x = rnd &&& kk ∧
      SameRegsExcept (· = x) s t ∧ SameInputs s t ∧ AdvancesBy 2 s t)

/-- 46_host_commands.md section 1 (the spec's decision D26, log 1): a STEP of any opcode but Cxkk does not depend on its
random byte. -/
def Obligations.OnlyRandomUsesTheInputByte : Prop :=
  ∀ (p : Config.Params) (s : State) (rnd rnd' : Byte),
    (∀ w x kk, s.fetch = some w → decodeWord w ≠ some (.rnd x kk)) → issue p (.step rnd) s = issue p (.step rnd') s

/-- The frame of the instructions that write one register and no flag: everything but Vx and pc is unchanged (00_scope.md
section 6, the spec's decision D9, log 10). RND alone consumes one of the model's own input bytes (log 1). -/
def Obligations.RegisterWritersChangeOnlyVx : Prop :=
  ∀ (i : Instr) (x : RegIdx) (s t : State),
    ((∃ kk, i = .ldByte x kk ∨ i = .addByte x kk ∨ i = .rnd x kk) ∨
      (∃ y, i = .ldReg x y ∨ i = .orReg x y ∨ i = .andReg x y ∨ i = .xorReg x y) ∨ i = .ldVxDt x ∨ i = .ldVxK x) →
    exec i s = .next t →
    SameRegsExcept (· = x) s t ∧ t.i = s.i ∧ SameStack s t ∧ SameTimers s t ∧ SameMemory s t ∧ SameDisplay s t ∧
      t.keys = s.keys ∧ ((∀ kk, i ≠ .rnd x kk) → SameInputs s t)

/-- The frame of the arithmetic with flag: everything but Vx, VF and pc is unchanged, Vy of a shift among it (00_scope.md
section 6, the spec's decision D9, log 10). -/
def Obligations.FlagWritersChangeOnlyVxAndVF : Prop :=
  ∀ (i : Instr) (x y : RegIdx) (s t : State),
    (i = .addReg x y ∨ i = .sub x y ∨ i = .subn x y ∨ i = .shr x y ∨ i = .shl x y) → exec i s = .next t →
    SameRegsExcept (fun r => r = x ∨ r = regF) s t ∧ t.i = s.i ∧ SameStack s t ∧ SameTimers s t ∧ SameMemory s t ∧
      SameDisplay s t ∧ SameInputs s t

/-! ## Index register and memory -/

/-- 43_index_memory.md R140: LD I sets I to nnn. -/
def Obligations.LoadIndexSetsI : Prop :=
  EncodedAs 0xF000 0xA000 (fun w => .ldI (fieldNnn w)) ∧
  ∀ (nnn : Addr12) (s : State), ∃ t, exec (.ldI nnn) s = .next t ∧ t.i.toNat = nnn.toNat ∧ SameRegs s t ∧
    AdvancesBy 2 s t

/-- 43_index_memory.md section 2 (the spec's decisions D10 and D11, log 11): ADD I is modulo 65536, LD F multiplies the
whole byte by 5; neither writes a flag. -/
def Obligations.IndexArithmetic : Prop :=
  EncodedAs 0xF0FF 0xF01E (fun w => .addI (fieldX w)) ∧ EncodedAs 0xF0FF 0xF029 (fun w => .ldF (fieldX w)) ∧
  ∀ (x : RegIdx) (s : State),
    (∃ t, exec (.addI x) s = .next t ∧ t.i.toNat = (s.i.toNat + (s.reg x).toNat) % 65536 ∧ SameRegs s t ∧
      AdvancesBy 2 s t) ∧
    (∃ t, exec (.ldF x) s = .next t ∧ t.i.toNat = 5 * (s.reg x).toNat ∧ SameRegs s t ∧ AdvancesBy 2 s t)

/-- The frame of the instructions that set I or a timer: everything but that register and pc is unchanged (00_scope.md
section 6, the spec's decision D9, log 10). -/
def Obligations.IndexAndTimerWritersChangeOnlyTheirRegister : Prop :=
  ∀ (i : Instr) (s t : State), exec i s = .next t →
    (((∃ nnn, i = .ldI nnn) ∨ ∃ x, i = .addI x ∨ i = .ldF x) →
      SameRegs s t ∧ SameStack s t ∧ SameTimers s t ∧ SameMemory s t ∧ SameDisplay s t ∧ SameInputs s t) ∧
    ((∃ x, i = .ldDtVx x) →
      SameRegs s t ∧ t.i = s.i ∧ SameStack s t ∧ t.st = s.st ∧ SameMemory s t ∧ SameDisplay s t ∧ SameInputs s t) ∧
    ((∃ x, i = .ldStVx x) →
      SameRegs s t ∧ t.i = s.i ∧ SameStack s t ∧ t.dt = s.dt ∧ SameMemory s t ∧ SameDisplay s t ∧ SameInputs s t)

/-- 43_index_memory.md section 3 (the spec's decisions D4 and D20, log 7 and 8): with the whole range inside memory, LD B
stores the decimal digits of Vx and LD [I] stores V0 to Vx; otherwise both fault. -/
def Obligations.StoresWriteDigitsAndRegisters : Prop :=
  ∀ (x : RegIdx) (s : State), s.mem.wf →
    (s.i.toNat + 2 ≤ 0x0FFF → ∃ t, exec (.ldB x) s = .next t ∧
      (t.byteAt s.i.toNat).toNat = (s.reg x).toNat / 100 ∧
      (t.byteAt (s.i.toNat + 1)).toNat = (s.reg x).toNat / 10 % 10 ∧
      (t.byteAt (s.i.toNat + 2)).toNat = (s.reg x).toNat % 10 ∧ AdvancesBy 2 s t) ∧
    (0x0FFF < s.i.toNat + 2 → exec (.ldB x) s = .fault .memoryAccessViolation) ∧
    (s.i.toNat + x.val ≤ 0x0FFF → ∃ t, exec (.ldMemVx x) s = .next t ∧
      (∀ k : RegIdx, k ≤ x → t.byteAt (s.i.toNat + k.val) = s.reg k) ∧ AdvancesBy 2 s t) ∧
    (0x0FFF < s.i.toNat + x.val → exec (.ldMemVx x) s = .fault .memoryAccessViolation)

/-- 43_index_memory.md section 4 (the spec's decisions D4 and D20, log 7 and 8): with the whole range inside memory,
LD Vx, [I] loads V0 to Vx; otherwise it faults. -/
def Obligations.LoadReadsRegisterBlock : Prop :=
  ∀ (x : RegIdx) (s : State),
    (s.i.toNat + x.val ≤ 0x0FFF → ∃ t, exec (.ldVxMem x) s = .next t ∧
      (∀ k : RegIdx, k ≤ x → t.reg k = s.byteAt (s.i.toNat + k.val)) ∧ AdvancesBy 2 s t) ∧
    (0x0FFF < s.i.toNat + x.val → exec (.ldVxMem x) s = .fault .memoryAccessViolation)

/-- The frame of the memory instructions: a store changes only the stored bytes, the 3 (LD B) or x + 1 (LD [I]) from I
upward, and pc; the load changes only V0 to Vx and pc (00_scope.md section 6 and 43_index_memory.md section 1, the spec's
decision D9, log 10). -/
def Obligations.MemoryInstructionsChangeOnlyTheirTargets : Prop :=
  ∀ (x : RegIdx) (s t : State), s.mem.wf →
    (exec (.ldB x) s = .next t →
      SameMemoryOutside s.i.toNat 3 s t ∧ SameRegs s t ∧ t.i = s.i ∧ SameStack s t ∧ SameTimers s t ∧
      SameDisplay s t ∧ SameInputs s t) ∧
    (exec (.ldMemVx x) s = .next t →
      SameMemoryOutside s.i.toNat (x.val + 1) s t ∧ SameRegs s t ∧ t.i = s.i ∧ SameStack s t ∧ SameTimers s t ∧
      SameDisplay s t ∧ SameInputs s t) ∧
    (exec (.ldVxMem x) s = .next t →
      SameMemory s t ∧ SameRegsExcept (· ≤ x) s t ∧ t.i = s.i ∧ SameStack s t ∧ SameTimers s t ∧ SameDisplay s t ∧
      SameInputs s t)

/-- 20_memory.md section 6 (the spec's decision D21, log 8): a store is seen by the very next fetch. After LD [I] or LD B,
each of the two bytes the next fetch reads is the stored byte (register or decimal digit) where the store covers its
address, and the byte that stood there before where it does not. -/
def Obligations.StoreIsSeenByTheNextFetch : Prop :=
  ∀ (x : RegIdx) (s t : State), s.mem.wf → t.pc.toNat ≤ 0x0FFE →
    (exec (.ldMemVx x) s = .next t → ∃ first second, t.fetch = some (opcodeOfBytes first second) ∧
      ∀ b a, (b = first ∧ a = t.pc.toNat) ∨ (b = second ∧ a = t.pc.toNat + 1) →
        (∀ k : RegIdx, k ≤ x → s.i.toNat + k.val = a → b = s.reg k) ∧
        (a < s.i.toNat ∨ s.i.toNat + x.val < a → b = s.byteAt a)) ∧
    (exec (.ldB x) s = .next t → ∃ first second, t.fetch = some (opcodeOfBytes first second) ∧
      ∀ b a, (b = first ∧ a = t.pc.toNat) ∨ (b = second ∧ a = t.pc.toNat + 1) →
        (s.i.toNat = a → b.toNat = (s.reg x).toNat / 100) ∧
        (s.i.toNat + 1 = a → b.toNat = (s.reg x).toNat / 10 % 10) ∧
        (s.i.toNat + 2 = a → b.toNat = (s.reg x).toNat % 10) ∧
        (a < s.i.toNat ∨ s.i.toNat + 2 < a → b = s.byteAt a))

/-! ## Display -/

/-- 44_display.md R150: CLS clears every pixel and writes no register; on a clear display it changes only pc. -/
def Obligations.ClearBlanksTheDisplay : Prop :=
  EncodedAs 0xFFFF 0x00E0 (fun _ => .cls) ∧
  ∀ s : State, ∃ t, exec .cls s = .next t ∧ (∀ r c, pixel t.disp r c = false) ∧ SameRegs s t ∧ AdvancesBy 2 s t ∧
    ((∀ r c, pixel s.disp r c = false) → { t with pc := s.pc } = s)

/-- 44_display.md, Dxyn (the spec's decisions D19 and D20, log 8): the loops of the draw equal the pixel-wise rule. Each
pixel is XORed with the sprite bit over it, both coordinates wrapping, and VF is 1 iff a lit pixel lies under a sprite
bit. For x or y = 0xF the coordinate is VF's old value: coordinates are read before VF is written (D8, log 9). -/
def Obligations.DrawXorsTheSpriteAndReportsCollision : Prop :=
  ∀ (x y : RegIdx) (n : Nat) (s : State), (Instr.drw x y n).WellFormed → (n = 0 ∨ s.i.toNat + n - 1 ≤ 0x0FFF) →
    ∃ t, exec (.drw x y n) s = .next t ∧
      (∀ r c, pixel t.disp r c = true ↔ (pixel s.disp r c = true ↔ ¬ SpriteCovers s x y n r c)) ∧
      ((t.reg regF = 1#8 ∧ ∃ r c, pixel s.disp r c = true ∧ SpriteCovers s x y n r c) ∨
        (t.reg regF = 0#8 ∧ ∀ r c, pixel s.disp r c = true → ¬ SpriteCovers s x y n r c)) ∧
      AdvancesBy 2 s t

/-- The double-XOR property (S4 of 95_test_vectors.md; 44_display.md, Dxyn): drawing the same sprite twice at the same
place restores every pixel, and the second draw's VF is 1 iff the first left a pixel lit under a sprite bit. The place is
the same when neither coordinate register is VF, which the first draw overwrites. -/
def Obligations.DrawingTwiceRestoresTheDisplay : Prop :=
  ∀ (x y : RegIdx) (n : Nat) (s t u : State), (Instr.drw x y n).WellFormed → x ≠ regF → y ≠ regF →
    exec (.drw x y n) s = .next t → exec (.drw x y n) t = .next u →
    SameDisplay s u ∧
    (u.reg regF = 1#8 ↔ ∃ r c, pixel t.disp r c = true ∧ SpriteCovers s x y n r c)

/-- The frame of the display instructions: CLS writes no register and DRW only VF; memory, I, the stack, the timers and the
inputs are unchanged (00_scope.md section 6, the spec's decision D9, log 10). -/
def Obligations.DisplayInstructionsChangeOnlyDisplayAndVF : Prop :=
  ∀ (s t : State),
    (exec .cls s = .next t →
      SameRegs s t ∧ t.i = s.i ∧ SameStack s t ∧ SameTimers s t ∧ SameMemory s t ∧ SameInputs s t) ∧
    (∀ x y n, exec (.drw x y n) s = .next t →
      SameRegsExcept (· = regF) s t ∧ t.i = s.i ∧ SameStack s t ∧ SameTimers s t ∧ SameMemory s t ∧ SameInputs s t)

/-! ## Keys and timers -/

/-- 45_keypad_timers.md section 1 (a key index above 15 is not pressed: the spec's decision D12, log 11): SKP skips when
the key named by the whole byte Vx is pressed, SKNP when it is not. -/
def Obligations.KeySkipsTestTheSnapshot : Prop :=
  EncodedAs 0xF0FF 0xE09E (fun w => .skp (fieldX w)) ∧ EncodedAs 0xF0FF 0xE0A1 (fun w => .sknp (fieldX w)) ∧
  ∀ (x : RegIdx) (s : State),
    (∃ t, exec (.skp x) s = .next t ∧ SameRegs s t ∧
      AdvancesBy (if ∃ k : RegIdx, k.val = (s.reg x).toNat ∧ s.keys.getLsbD k.val = true then 4 else 2) s t) ∧
    (∃ t, exec (.sknp x) s = .next t ∧ SameRegs s t ∧
      AdvancesBy (if ∃ k : RegIdx, k.val = (s.reg x).toNat ∧ s.keys.getLsbD k.val = true then 2 else 4) s t)

/-- 45_keypad_timers.md section 2 (which of several keys is a free value: the spec's decision D13, log 2): with no key
pressed the step changes nothing, pc included; otherwise Vx receives a pressed key, the one pressed key if there is just
one. -/
def Obligations.KeyWaitStallsOrStoresAPressedKey : Prop :=
  EncodedAs 0xF0FF 0xF00A (fun w => .ldVxK (fieldX w)) ∧
  ∀ (x : RegIdx) (s : State),
    (s.keys = 0#16 → exec (.ldVxK x) s = .next s) ∧
    (s.keys ≠ 0#16 → ∃ (t : State) (k : RegIdx), exec (.ldVxK x) s = .next t ∧ (t.reg x).toNat = k.val ∧
      s.keys.getLsbD k.val = true ∧ (∀ j : RegIdx, s.keys = 1#16 <<< j.val → k = j) ∧ AdvancesBy 2 s t)

/-- 45_keypad_timers.md R162, R164, R165: the timer instructions copy whole bytes; the sound flag follows ST at once and
stays on until the TICK that brings ST to 0. -/
def Obligations.TimerInstructionsCopyBytes : Prop :=
  EncodedAs 0xF0FF 0xF007 (fun w => .ldVxDt (fieldX w)) ∧ EncodedAs 0xF0FF 0xF015 (fun w => .ldDtVx (fieldX w)) ∧
  EncodedAs 0xF0FF 0xF018 (fun w => .ldStVx (fieldX w)) ∧
  ∀ (x : RegIdx) (s : State),
    (∃ t, exec (.ldVxDt x) s = .next t ∧ t.reg x = s.dt ∧ t.dt = s.dt ∧ (x ≠ regF → t.reg regF = s.reg regF) ∧
      AdvancesBy 2 s t) ∧
    (∃ t, exec (.ldDtVx x) s = .next t ∧ t.dt = s.reg x ∧ t.st = s.st ∧ SameRegs s t ∧ AdvancesBy 2 s t) ∧
    (∃ t, exec (.ldStVx x) s = .next t ∧ t.st = s.reg x ∧ t.dt = s.dt ∧ SameRegs s t ∧ AdvancesBy 2 s t ∧
      ∀ k, (State.tick^[k] t).sound = decide (k < (s.reg x).toNat))

/-- 10_state.md R31: the delay timer is reset to 0, written by Fx15, read by Fx07, decremented by TICK and clamped at zero;
no other instruction writes it or reads it. -/
def Obligations.DelayTimerWritersAndReaders : Prop :=
  State.reset.dt = 0 ∧
  (∀ (x : RegIdx) (s : State), ∃ t, exec (.ldDtVx x) s = .next t ∧ t.dt = s.reg x) ∧
  (∀ (x : RegIdx) (s : State), ∃ t, exec (.ldVxDt x) s = .next t ∧ t.reg x = s.dt) ∧
  (∀ (p : Config.Params) (s : State), (issue p .tick s).1.dt.toNat = if s.dt.toNat > 0 then s.dt.toNat - 1 else s.dt.toNat) ∧
  (∀ (i : Instr) (s : State) (b : Byte), (∀ x, i ≠ .ldVxDt x) → (∀ x, i ≠ .ldDtVx x) →
    exec i (s.setDt b) = mapNext (·.setDt b) (exec i s))

/-- 10_state.md R32: the sound timer is reset to 0, written by Fx18, decremented by TICK independently of DT; no
instruction reads it, no other writes it, and its only output is the sound flag. -/
def Obligations.SoundTimerWritersAndOutput : Prop :=
  State.reset.st = 0 ∧
  (∀ (x : RegIdx) (s : State), ∃ t, exec (.ldStVx x) s = .next t ∧ t.st = s.reg x) ∧
  (∀ (p : Config.Params) (s : State) (b : Byte),
    (issue p .tick s).1.st.toNat = (if s.st.toNat > 0 then s.st.toNat - 1 else s.st.toNat) ∧
    (issue p .tick (s.setDt b)).1.st = (issue p .tick s).1.st ∧
    (issue p .tick (s.setSt b)).1.dt = (issue p .tick s).1.dt) ∧
  (∀ (i : Instr) (s : State) (b : Byte), (∀ x, i ≠ .ldStVx x) →
    exec i (s.setSt b) = mapNext (·.setSt b) (exec i s)) ∧
  (∀ (p : Config.Params) (s : State), issue p .readSound s = (s, .sound (decide (s.st.toNat > 0)))) ∧
  (∀ (p : Config.Params) (s : State) (b : Byte), (issue p .readDisplay (s.setSt b)).2 = (issue p .readDisplay s).2)

/-! ## Which instructions may change what -/

/-- The owner column of 10_state.md section 1 and 00_scope.md section 6 (the spec's decision D9, log 10), read as a rule
about every instruction: what a step's instruction may write. KEYS is never written. -/
def Obligations.OnlyOwnersWriteEachPieceOfState : Prop :=
  ∀ (i : Instr) (s t : State), exec i s = .next t →
    t.keys = s.keys ∧
    (t.i ≠ s.i → (∃ nnn, i = .ldI nnn) ∨ ∃ x, i = .addI x ∨ i = .ldF x) ∧
    (¬ SameStack s t → i = .ret ∨ ∃ nnn, i = .call nnn) ∧
    (t.dt ≠ s.dt → ∃ x, i = .ldDtVx x) ∧ (t.st ≠ s.st → ∃ x, i = .ldStVx x) ∧
    (t.mem ≠ s.mem → ∃ x, i = .ldB x ∨ i = .ldMemVx x) ∧
    (t.disp ≠ s.disp → i = .cls ∨ ∃ x y n, i = .drw x y n) ∧
    (¬ SameInputs s t → ∃ x kk, i = .rnd x kk)

/-- 10_state.md section 2: VF changes only under the six flag writers, or where it is named as the destination. -/
def Obligations.OnlyFlagWritersOrDestinationsTouchVF : Prop :=
  ∀ (i : Instr) (s t : State), exec i s = .next t → t.reg regF ≠ s.reg regF →
    (∃ x y, i = .addReg x y ∨ i = .sub x y ∨ i = .subn x y ∨ i = .shr x y ∨ i = .shl x y) ∨
    (∃ x y n, i = .drw x y n) ∨
    (∃ kk, i = .ldByte regF kk ∨ i = .addByte regF kk ∨ i = .rnd regF kk) ∨
    (∃ y, i = .ldReg regF y ∨ i = .orReg regF y ∨ i = .andReg regF y ∨ i = .xorReg regF y) ∨
    i = .ldVxDt regF ∨ i = .ldVxK regF ∨ i = .ldVxMem regF

/-- The table of 10_state.md section 4 (the spec's decisions D7 and D23, log 11 and 12): after an instruction that is no
jump, call, return, skip or stalled key wait, pc has advanced by 2. -/
def Obligations.EveryOtherInstructionAdvancesByTwo : Prop :=
  ∀ (i : Instr) (s t : State), exec i s = .next t →
    i ≠ .ret → (∀ nnn, i ≠ .jp nnn ∧ i ≠ .call nnn ∧ i ≠ .jpV0 nnn) →
    (∀ x kk, i ≠ .seByte x kk ∧ i ≠ .sneByte x kk) → (∀ x y, i ≠ .seReg x y ∧ i ≠ .sneReg x y) →
    (∀ x, i ≠ .skp x ∧ i ≠ .sknp x) → (∀ x, i = .ldVxK x → s.keys ≠ 0#16) →
    AdvancesBy 2 s t

/-! ## Reset, host commands, invariants -/

/-- The reset values of 10_state.md section 11, at every `FONT` and `MEM_INIT` (the stack slots and KEYS are the spec's
decisions D24 and D15, log 6 and 5; that memory is given by the two open parameters is D16 and D14, log 3 and 4), and
`State.reset` is that state at the defaults. No byte value of the font is stated here. -/
def Obligations.ResetValues : Prop :=
  (∀ p : Config.Params,
    (∀ r, (State.resetWith p).reg r = 0) ∧ (State.resetWith p).i = 0 ∧ (State.resetWith p).pc = 0x0200 ∧
    (State.resetWith p).sp.val = 0 ∧ (∀ j : Fin Config.stackDepth, (State.resetWith p).stack[j] = 0) ∧
    (State.resetWith p).dt = 0 ∧ (State.resetWith p).st = 0 ∧
    (∀ r c, pixel (State.resetWith p).disp r c = false) ∧ (State.resetWith p).keys = 0 ∧
    (∀ a (h : a < 80), (State.resetWith p).byteAt a = p.font[a]) ∧
    (∀ a (h : a < 4016), (State.resetWith p).byteAt (80 + a) = p.memInit[a])) ∧
  State.resetWith defaultParams = State.reset

/-- 10_state.md R24: pc is reset to 0x0200, which is also where a program is copied to, so it is the entry point. -/
def Obligations.ResetEntersTheLoadedProgram : Prop :=
  ∀ p : Config.Params, (State.resetWith p).pc.toNat = 0x0200 ∧
  ∀ (first second : Byte) (rest : List Byte), (first :: second :: rest).length ≤ 3584 →
    ∃ t, issue p (.load (first :: second :: rest)) (State.resetWith p) = (t, .status .ok) ∧ t.pc.toNat = 0x0200 ∧
      t.fetch = some (opcodeOfBytes first second)

/-- 46_host_commands.md section 1 (the spec's decision D25, log 13): LOAD copies a program of at most 3584 bytes to 0x200 upward
and changes nothing else; a longer one is rejected whole. -/
def Obligations.LoadCopiesTheProgramOnly : Prop :=
  ∀ (p : Config.Params) (bytes : List Byte) (s : State), s.mem.wf →
    (bytes.length ≤ 3584 → ∃ t, issue p (.load bytes) s = (t, .status .ok) ∧
      (∀ k (h : k < bytes.length), t.byteAt (0x200 + k) = bytes[k]) ∧ SameMemoryOutside 0x200 bytes.length s t ∧
      { t with mem := s.mem } = s) ∧
    (3584 < bytes.length → issue p (.load bytes) s = (s, .status .romTooLarge))

/-- 46_host_commands.md R175: TICK decrements both timers by 1, each floored at 0, and changes nothing else. -/
def Obligations.TickDecrementsBothTimers : Prop :=
  ∀ (p : Config.Params) (s : State), ∃ t, issue p .tick s = (t, .none) ∧
    t.dt.toNat = s.dt.toNat - 1 ∧ t.st.toNat = s.st.toNat - 1 ∧ { t with dt := s.dt, st := s.st } = s

/-- 46_host_commands.md section 1 (the latch and the flat order are the spec's decisions D15 and D18, log 5 and 15): SET_KEYS
replaces the whole snapshot, the reads change nothing, READ_DISPLAY returns the 2048 pixels row by row, and RESET (a command
by the spec's decision D28, log 13) puts the core in its reset state at the machine's `FONT` and `MEM_INIT`; the model's two
fields for the host's random generator are not the core's and keep their values (log 1). -/
def Obligations.OtherHostCommands : Prop :=
  ∀ (p : Config.Params) (s : State),
    (∀ k, ∃ t, issue p (.setKeys k) s = (t, .none) ∧ t.keys = k ∧ { t with keys := s.keys } = s) ∧
    (∃ bits, issue p .readDisplay s = (s, .pixels bits) ∧ bits.length = 2048 ∧
      ∀ (r : Fin Config.screenHeight) (c : Fin Config.screenWidth), bits[r.val * 64 + c.val]? = some (pixel s.disp r c)) ∧
    (issue p .readSound s).1 = s ∧
    issue p .reset s = ({ State.resetWith p with rndIn := s.rndIn, rndIndex := s.rndIndex }, .none)

/-- The invariant holds after reset, at every `FONT` and `MEM_INIT`. -/
def Obligations.ResetMeetsTheInvariant : Prop := State.reset.Inv ∧ ∀ p, (State.resetWith p).Inv

/-- Every step keeps the invariant: the memory stays in its one form, pc stays at most 0x10FE and every live return
address at most 0x1000 (10_state.md section 4, an inference the spec marks as derived), from every state that meets it. -/
def Obligations.StepKeepsTheInvariant : Prop :=
  ∀ s t : State, s.Inv → step s = .next t → t.Inv

/-- 10_state.md section 4 (an inference the spec marks as derived): every command of the host keeps the invariant, from
every state that meets it; so does every sequence of commands, and after RESET, whatever the host does, pc never exceeds
0x10FE. (What LOAD and RESET do are the spec's decisions D25 and D28, log 13.) -/
def Obligations.EveryHostRunKeepsTheInvariant : Prop :=
  ∀ p : Config.Params,
    (∀ (c : Command) (s : State), s.Inv → (issue p c s).1.Inv) ∧
    (∀ (cs : List Command) (s : State), s.Inv → (issueAll p cs s).1.Inv) ∧
    ∀ cs : List Command, (issueAll p cs (State.resetWith p)).1.pc.toNat ≤ 0x10FE

/-- 70_reset_and_hazards.md section 5 (the spec's decision D31, log 17): a program that has parked on a jump to itself stays
as it is for ever, and meets no fault. -/
def Obligations.ParkedProgramStaysParked : Prop :=
  ∀ s : State, s.parked → (∀ k, Host.Core.run Sys2Proof.core k s = .next s) ∧ Safe s
end

