-- ==== Sys2Proof/Laws/Memory.lean ====
section
/-! SUPPORT. The laws of the memory: a read after a write, and that every operation keeps the canonical form. -/

namespace Sys2Proof.Machine.Memory

@[simp] theorem read_nil (a : Nat) : read [] a = initByte a := rfl

/-- Dropping a cell that holds the reset contents changes no read. -/
theorem read_cons (a : Nat) (b : Byte) (m : Memory) (k : Nat) (h : read m a = initByte a) :
    read (cons a b m) k = if k = a then b else read m k := by
  unfold cons
  split
  · rename_i hb
    by_cases hk : k = a
    · subst hk; simp [h, hb]
    · simp [hk]
  · simp [read]

/-- An address below every cell of a list reads as after reset. -/
theorem read_of_lt (m : Memory) (a : Nat) (h : ∀ c ∈ m, a < c.1) : read m a = initByte a := by
  induction m with
  | nil => rfl
  | cons c m ih =>
    have hc := h c (by simp)
    have : a ≠ c.1 := by omega
    simp [read, this, ih (fun d hd => h d (by simp [hd]))]

/-- Reading after a write: the byte written at its address, the old byte everywhere else. -/
theorem read_write (m : Memory) (hm : m.Pairwise (fun c d => c.1 < d.1)) (a : Nat) (b : Byte) (k : Nat) :
    read (write m a b) k = if k = a then b else read m k := by
  induction m with
  | nil => simpa [write] using read_cons a b [] k rfl
  | cons c m ih =>
    obtain ⟨j, d⟩ := c
    obtain ⟨hj, hm'⟩ := List.pairwise_cons.mp hm
    unfold write
    split
    · refine read_cons a b _ k (read_of_lt _ a ?_)
      intro e he
      rcases List.mem_cons.mp he with rfl | he
      · assumption
      · exact Nat.lt_trans ‹a < j› (hj e he)
    · split
      · rename_i haj
        subst haj
        rw [read_cons a b m k (read_of_lt m a hj)]
        by_cases hk : k = a <;> simp [read, hk]
      · rename_i h1 h2
        simp only [read, ih hm']
        by_cases hk : k = j
        · have : k ≠ a := by omega
          simp [hk]; omega
        · simp [hk]

/-- Every cell of a written list is an old cell or the one written. -/
theorem mem_write (m : Memory) (a : Nat) (b : Byte) (c : Host.Cell) (h : c ∈ write m a b) :
    c ∈ m ∨ (c = (a, b) ∧ b ≠ initByte a) := by
  have hcons : ∀ m' : Memory, c ∈ cons a b m' → c ∈ m' ∨ (c = (a, b) ∧ b ≠ initByte a) := by
    intro m' hc
    unfold cons at hc
    split at hc
    · exact .inl hc
    · rcases List.mem_cons.mp hc with rfl | hc
      · exact .inr ⟨rfl, by assumption⟩
      · exact .inl hc
  induction m with
  | nil => exact hcons [] h
  | cons d m ih =>
    unfold write at h
    split at h
    · exact hcons _ h
    · split at h
      · exact (hcons _ h).imp (fun hc => by simp [hc]) id
      · rcases List.mem_cons.mp h with rfl | h
        · simp
        · exact (ih h).imp (fun hc => by simp [hc]) id

theorem pairwise_cons_cell (m : Memory) (a : Nat) (b : Byte) (hm : m.Pairwise (fun c d => c.1 < d.1))
    (h : ∀ c ∈ m, a < c.1) : (cons a b m).Pairwise (fun c d => c.1 < d.1) := by
  unfold cons
  split
  · exact hm
  · exact List.pairwise_cons.mpr ⟨h, hm⟩

theorem write_pairwise (m : Memory) (a : Nat) (b : Byte) (hm : m.Pairwise (fun c d => c.1 < d.1)) :
    (write m a b).Pairwise (fun c d => c.1 < d.1) := by
  induction m with
  | nil => exact pairwise_cons_cell [] a b hm (by simp)
  | cons c m ih =>
    obtain ⟨hj, hm'⟩ := List.pairwise_cons.mp hm
    unfold write
    split
    · refine pairwise_cons_cell _ a b hm ?_
      intro e he
      rcases List.mem_cons.mp he with rfl | he
      · assumption
      · exact Nat.lt_trans ‹a < c.1› (hj e he)
    · split
      · rename_i haj
        subst haj
        exact pairwise_cons_cell _ _ b hm' hj
      · refine List.pairwise_cons.mpr ⟨fun e he => ?_, ih hm'⟩
        rcases mem_write m a b e he with he | ⟨rfl, -⟩
        · exact hj e he
        · simp only; omega

/-- A write inside the memory keeps the canonical form. -/
theorem write_wf (m : Memory) (a : Nat) (b : Byte) (hm : m.wf) (ha : a < Config.memSize) : (write m a b).wf :=
  ⟨write_pairwise m a b hm.1, fun c hc => by
    rcases mem_write m a b c hc with hc | ⟨rfl, hb⟩
    · exact hm.2 c hc
    · exact ⟨ha, hb⟩⟩

/-- Writing bytes inside the memory keeps the canonical form. -/
theorem writeBytes_wf (m : Memory) (a : Nat) (bs : List Byte) (hm : m.wf) (h : a + bs.length ≤ Config.memSize) :
    (writeBytes m a bs).wf := by
  induction bs generalizing m a with
  | nil => exact hm
  | cons b bs ih =>
    simp only [List.length_cons] at h
    exact ih _ _ (write_wf m a b hm (by omega)) (by omega)

/-- Reading after several bytes are written: the byte of the list inside its range, the old byte outside. -/
theorem read_writeBytes (m : Memory) (hm : m.Pairwise (fun c d => c.1 < d.1)) (a : Nat) (bs : List Byte) (k : Nat) :
    read (writeBytes m a bs) k = if a ≤ k then bs.getD (k - a) (read m k) else read m k := by
  induction bs generalizing m a with
  | nil => simp [writeBytes]
  | cons b bs ih =>
    rw [writeBytes, ih _ (write_pairwise m a b hm), read_write m hm]
    by_cases h1 : a + 1 ≤ k
    · have h2 : a ≤ k := by omega
      have h3 : k - a = (k - (a + 1)) + 1 := by omega
      have h4 : k ≠ a := by omega
      simp [h1, h2, h3, h4]
    · by_cases h2 : k = a
      · subst h2; simp
      · have : ¬ a ≤ k := by omega
        simp [h1, h2, this]

@[simp] theorem length_readBytes (m : Memory) (a n : Nat) : (readBytes m a n).length = n := by
  induction n generalizing a with
  | zero => rfl
  | succ n ih => simp [readBytes, ih]

/-- The k-th byte read from address a is the byte at a + k. -/
theorem getElem_readBytes (m : Memory) (a n k : Nat) (h : k < n) :
    (readBytes m a n)[k]'(by simpa using h) = read m (a + k) := by
  induction n generalizing a k with
  | zero => omega
  | succ n ih =>
    cases k with
    | zero => rfl
    | succ k =>
      simp only [readBytes, List.getElem_cons_succ]
      rw [ih (a + 1) k (by omega)]
      congr 1
      omega

/-- Writing over the reset contents the bytes they already hold lists nothing. -/
theorem writeBytes_initByte (a : Nat) (bs : List Byte) (h : ∀ k (hk : k < bs.length), bs[k] = initByte (a + k)) :
    writeBytes [] a bs = [] := by
  induction bs generalizing a with
  | nil => rfl
  | cons b bs ih =>
    have hb : b = initByte a := h 0 (by simp)
    rw [writeBytes, write, cons, if_pos hb]
    refine ih (a + 1) fun k hk => ?_
    rw [show a + 1 + k = a + (k + 1) by omega]
    exact h (k + 1) (by simpa using hk)

/-- The empty list, the memory after reset, is in canonical form. -/
theorem nil_wf : wf [] := ⟨List.Pairwise.nil, fun _ h => nomatch h⟩

end Sys2Proof.Machine.Memory
end

