-- ==== Sys2Proof/Laws/State.lean ====
section
/-! SUPPORT. One lemma per field per update of the state, so that no proof unfolds a record update; and what an update does
to the register read. -/

namespace Sys2Proof.Machine.State

variable (s : State)

/-! ## setReg -/

@[simp] theorem setReg_v (x : RegIdx) (b : Byte) : (s.setReg x b).v = s.v.set x b := rfl
@[simp] theorem setReg_i (x : RegIdx) (b : Byte) : (s.setReg x b).i = s.i := rfl
@[simp] theorem setReg_pc (x : RegIdx) (b : Byte) : (s.setReg x b).pc = s.pc := rfl
@[simp] theorem setReg_stack (x : RegIdx) (b : Byte) : (s.setReg x b).stack = s.stack := rfl
@[simp] theorem setReg_sp (x : RegIdx) (b : Byte) : (s.setReg x b).sp = s.sp := rfl
@[simp] theorem setReg_dt (x : RegIdx) (b : Byte) : (s.setReg x b).dt = s.dt := rfl
@[simp] theorem setReg_st (x : RegIdx) (b : Byte) : (s.setReg x b).st = s.st := rfl
@[simp] theorem setReg_mem (x : RegIdx) (b : Byte) : (s.setReg x b).mem = s.mem := rfl
@[simp] theorem setReg_disp (x : RegIdx) (b : Byte) : (s.setReg x b).disp = s.disp := rfl
@[simp] theorem setReg_keys (x : RegIdx) (b : Byte) : (s.setReg x b).keys = s.keys := rfl
@[simp] theorem setReg_rndIn (x : RegIdx) (b : Byte) : (s.setReg x b).rndIn = s.rndIn := rfl
@[simp] theorem setReg_rndIndex (x : RegIdx) (b : Byte) : (s.setReg x b).rndIndex = s.rndIndex := rfl

/-! ## setFlagReg -/

@[simp] theorem setFlagReg_v (f : Byte) (x : RegIdx) (b : Byte) : (s.setFlagReg f x b).v = (s.v.set regF f).set x b := rfl
@[simp] theorem setFlagReg_i (f : Byte) (x : RegIdx) (b : Byte) : (s.setFlagReg f x b).i = s.i := rfl
@[simp] theorem setFlagReg_pc (f : Byte) (x : RegIdx) (b : Byte) : (s.setFlagReg f x b).pc = s.pc := rfl
@[simp] theorem setFlagReg_stack (f : Byte) (x : RegIdx) (b : Byte) : (s.setFlagReg f x b).stack = s.stack := rfl
@[simp] theorem setFlagReg_sp (f : Byte) (x : RegIdx) (b : Byte) : (s.setFlagReg f x b).sp = s.sp := rfl
@[simp] theorem setFlagReg_dt (f : Byte) (x : RegIdx) (b : Byte) : (s.setFlagReg f x b).dt = s.dt := rfl
@[simp] theorem setFlagReg_st (f : Byte) (x : RegIdx) (b : Byte) : (s.setFlagReg f x b).st = s.st := rfl
@[simp] theorem setFlagReg_mem (f : Byte) (x : RegIdx) (b : Byte) : (s.setFlagReg f x b).mem = s.mem := rfl
@[simp] theorem setFlagReg_disp (f : Byte) (x : RegIdx) (b : Byte) : (s.setFlagReg f x b).disp = s.disp := rfl
@[simp] theorem setFlagReg_keys (f : Byte) (x : RegIdx) (b : Byte) : (s.setFlagReg f x b).keys = s.keys := rfl
@[simp] theorem setFlagReg_rndIn (f : Byte) (x : RegIdx) (b : Byte) : (s.setFlagReg f x b).rndIn = s.rndIn := rfl
@[simp] theorem setFlagReg_rndIndex (f : Byte) (x : RegIdx) (b : Byte) : (s.setFlagReg f x b).rndIndex = s.rndIndex := rfl

/-! ## setPc -/

@[simp] theorem setPc_v (a : Word) : (s.setPc a).v = s.v := rfl
@[simp] theorem setPc_i (a : Word) : (s.setPc a).i = s.i := rfl
@[simp] theorem setPc_pc (a : Word) : (s.setPc a).pc = a := rfl
@[simp] theorem setPc_stack (a : Word) : (s.setPc a).stack = s.stack := rfl
@[simp] theorem setPc_sp (a : Word) : (s.setPc a).sp = s.sp := rfl
@[simp] theorem setPc_dt (a : Word) : (s.setPc a).dt = s.dt := rfl
@[simp] theorem setPc_st (a : Word) : (s.setPc a).st = s.st := rfl
@[simp] theorem setPc_mem (a : Word) : (s.setPc a).mem = s.mem := rfl
@[simp] theorem setPc_disp (a : Word) : (s.setPc a).disp = s.disp := rfl
@[simp] theorem setPc_keys (a : Word) : (s.setPc a).keys = s.keys := rfl
@[simp] theorem setPc_rndIn (a : Word) : (s.setPc a).rndIn = s.rndIn := rfl
@[simp] theorem setPc_rndIndex (a : Word) : (s.setPc a).rndIndex = s.rndIndex := rfl

/-! ## advance -/

@[simp] theorem advance_v : (s.advance).v = s.v := rfl
@[simp] theorem advance_i : (s.advance).i = s.i := rfl
@[simp] theorem advance_pc : (s.advance).pc = s.pc + 2#16 := rfl
@[simp] theorem advance_stack : (s.advance).stack = s.stack := rfl
@[simp] theorem advance_sp : (s.advance).sp = s.sp := rfl
@[simp] theorem advance_dt : (s.advance).dt = s.dt := rfl
@[simp] theorem advance_st : (s.advance).st = s.st := rfl
@[simp] theorem advance_mem : (s.advance).mem = s.mem := rfl
@[simp] theorem advance_disp : (s.advance).disp = s.disp := rfl
@[simp] theorem advance_keys : (s.advance).keys = s.keys := rfl
@[simp] theorem advance_rndIn : (s.advance).rndIn = s.rndIn := rfl
@[simp] theorem advance_rndIndex : (s.advance).rndIndex = s.rndIndex := rfl

/-! ## skipIf -/

@[simp] theorem skipIf_v (c : Bool) : (s.skipIf c).v = s.v := rfl
@[simp] theorem skipIf_i (c : Bool) : (s.skipIf c).i = s.i := rfl
@[simp] theorem skipIf_pc (c : Bool) : (s.skipIf c).pc = if c then s.pc + 4#16 else s.pc + 2#16 := rfl
@[simp] theorem skipIf_stack (c : Bool) : (s.skipIf c).stack = s.stack := rfl
@[simp] theorem skipIf_sp (c : Bool) : (s.skipIf c).sp = s.sp := rfl
@[simp] theorem skipIf_dt (c : Bool) : (s.skipIf c).dt = s.dt := rfl
@[simp] theorem skipIf_st (c : Bool) : (s.skipIf c).st = s.st := rfl
@[simp] theorem skipIf_mem (c : Bool) : (s.skipIf c).mem = s.mem := rfl
@[simp] theorem skipIf_disp (c : Bool) : (s.skipIf c).disp = s.disp := rfl
@[simp] theorem skipIf_keys (c : Bool) : (s.skipIf c).keys = s.keys := rfl
@[simp] theorem skipIf_rndIn (c : Bool) : (s.skipIf c).rndIn = s.rndIn := rfl
@[simp] theorem skipIf_rndIndex (c : Bool) : (s.skipIf c).rndIndex = s.rndIndex := rfl

/-! ## setI -/

@[simp] theorem setI_v (a : Word) : (s.setI a).v = s.v := rfl
@[simp] theorem setI_i (a : Word) : (s.setI a).i = a := rfl
@[simp] theorem setI_pc (a : Word) : (s.setI a).pc = s.pc := rfl
@[simp] theorem setI_stack (a : Word) : (s.setI a).stack = s.stack := rfl
@[simp] theorem setI_sp (a : Word) : (s.setI a).sp = s.sp := rfl
@[simp] theorem setI_dt (a : Word) : (s.setI a).dt = s.dt := rfl
@[simp] theorem setI_st (a : Word) : (s.setI a).st = s.st := rfl
@[simp] theorem setI_mem (a : Word) : (s.setI a).mem = s.mem := rfl
@[simp] theorem setI_disp (a : Word) : (s.setI a).disp = s.disp := rfl
@[simp] theorem setI_keys (a : Word) : (s.setI a).keys = s.keys := rfl
@[simp] theorem setI_rndIn (a : Word) : (s.setI a).rndIn = s.rndIn := rfl
@[simp] theorem setI_rndIndex (a : Word) : (s.setI a).rndIndex = s.rndIndex := rfl

/-! ## setDt -/

@[simp] theorem setDt_v (b : Byte) : (s.setDt b).v = s.v := rfl
@[simp] theorem setDt_i (b : Byte) : (s.setDt b).i = s.i := rfl
@[simp] theorem setDt_pc (b : Byte) : (s.setDt b).pc = s.pc := rfl
@[simp] theorem setDt_stack (b : Byte) : (s.setDt b).stack = s.stack := rfl
@[simp] theorem setDt_sp (b : Byte) : (s.setDt b).sp = s.sp := rfl
@[simp] theorem setDt_dt (b : Byte) : (s.setDt b).dt = b := rfl
@[simp] theorem setDt_st (b : Byte) : (s.setDt b).st = s.st := rfl
@[simp] theorem setDt_mem (b : Byte) : (s.setDt b).mem = s.mem := rfl
@[simp] theorem setDt_disp (b : Byte) : (s.setDt b).disp = s.disp := rfl
@[simp] theorem setDt_keys (b : Byte) : (s.setDt b).keys = s.keys := rfl
@[simp] theorem setDt_rndIn (b : Byte) : (s.setDt b).rndIn = s.rndIn := rfl
@[simp] theorem setDt_rndIndex (b : Byte) : (s.setDt b).rndIndex = s.rndIndex := rfl

/-! ## setSt -/

@[simp] theorem setSt_v (b : Byte) : (s.setSt b).v = s.v := rfl
@[simp] theorem setSt_i (b : Byte) : (s.setSt b).i = s.i := rfl
@[simp] theorem setSt_pc (b : Byte) : (s.setSt b).pc = s.pc := rfl
@[simp] theorem setSt_stack (b : Byte) : (s.setSt b).stack = s.stack := rfl
@[simp] theorem setSt_sp (b : Byte) : (s.setSt b).sp = s.sp := rfl
@[simp] theorem setSt_dt (b : Byte) : (s.setSt b).dt = s.dt := rfl
@[simp] theorem setSt_st (b : Byte) : (s.setSt b).st = b := rfl
@[simp] theorem setSt_mem (b : Byte) : (s.setSt b).mem = s.mem := rfl
@[simp] theorem setSt_disp (b : Byte) : (s.setSt b).disp = s.disp := rfl
@[simp] theorem setSt_keys (b : Byte) : (s.setSt b).keys = s.keys := rfl
@[simp] theorem setSt_rndIn (b : Byte) : (s.setSt b).rndIn = s.rndIn := rfl
@[simp] theorem setSt_rndIndex (b : Byte) : (s.setSt b).rndIndex = s.rndIndex := rfl

/-! ## setKeys -/

@[simp] theorem setKeys_v (k : Word) : (s.setKeys k).v = s.v := rfl
@[simp] theorem setKeys_i (k : Word) : (s.setKeys k).i = s.i := rfl
@[simp] theorem setKeys_pc (k : Word) : (s.setKeys k).pc = s.pc := rfl
@[simp] theorem setKeys_stack (k : Word) : (s.setKeys k).stack = s.stack := rfl
@[simp] theorem setKeys_sp (k : Word) : (s.setKeys k).sp = s.sp := rfl
@[simp] theorem setKeys_dt (k : Word) : (s.setKeys k).dt = s.dt := rfl
@[simp] theorem setKeys_st (k : Word) : (s.setKeys k).st = s.st := rfl
@[simp] theorem setKeys_mem (k : Word) : (s.setKeys k).mem = s.mem := rfl
@[simp] theorem setKeys_disp (k : Word) : (s.setKeys k).disp = s.disp := rfl
@[simp] theorem setKeys_keys (k : Word) : (s.setKeys k).keys = k := rfl
@[simp] theorem setKeys_rndIn (k : Word) : (s.setKeys k).rndIn = s.rndIn := rfl
@[simp] theorem setKeys_rndIndex (k : Word) : (s.setKeys k).rndIndex = s.rndIndex := rfl

/-! ## setDisp -/

@[simp] theorem setDisp_v (d : Display) : (s.setDisp d).v = s.v := rfl
@[simp] theorem setDisp_i (d : Display) : (s.setDisp d).i = s.i := rfl
@[simp] theorem setDisp_pc (d : Display) : (s.setDisp d).pc = s.pc := rfl
@[simp] theorem setDisp_stack (d : Display) : (s.setDisp d).stack = s.stack := rfl
@[simp] theorem setDisp_sp (d : Display) : (s.setDisp d).sp = s.sp := rfl
@[simp] theorem setDisp_dt (d : Display) : (s.setDisp d).dt = s.dt := rfl
@[simp] theorem setDisp_st (d : Display) : (s.setDisp d).st = s.st := rfl
@[simp] theorem setDisp_mem (d : Display) : (s.setDisp d).mem = s.mem := rfl
@[simp] theorem setDisp_disp (d : Display) : (s.setDisp d).disp = d := rfl
@[simp] theorem setDisp_keys (d : Display) : (s.setDisp d).keys = s.keys := rfl
@[simp] theorem setDisp_rndIn (d : Display) : (s.setDisp d).rndIn = s.rndIn := rfl
@[simp] theorem setDisp_rndIndex (d : Display) : (s.setDisp d).rndIndex = s.rndIndex := rfl

/-! ## store -/

@[simp] theorem store_v (a : Nat) (bs : List Byte) : (s.store a bs).v = s.v := rfl
@[simp] theorem store_i (a : Nat) (bs : List Byte) : (s.store a bs).i = s.i := rfl
@[simp] theorem store_pc (a : Nat) (bs : List Byte) : (s.store a bs).pc = s.pc := rfl
@[simp] theorem store_stack (a : Nat) (bs : List Byte) : (s.store a bs).stack = s.stack := rfl
@[simp] theorem store_sp (a : Nat) (bs : List Byte) : (s.store a bs).sp = s.sp := rfl
@[simp] theorem store_dt (a : Nat) (bs : List Byte) : (s.store a bs).dt = s.dt := rfl
@[simp] theorem store_st (a : Nat) (bs : List Byte) : (s.store a bs).st = s.st := rfl
@[simp] theorem store_mem (a : Nat) (bs : List Byte) : (s.store a bs).mem = s.mem.writeBytes a bs := rfl
@[simp] theorem store_disp (a : Nat) (bs : List Byte) : (s.store a bs).disp = s.disp := rfl
@[simp] theorem store_keys (a : Nat) (bs : List Byte) : (s.store a bs).keys = s.keys := rfl
@[simp] theorem store_rndIn (a : Nat) (bs : List Byte) : (s.store a bs).rndIn = s.rndIn := rfl
@[simp] theorem store_rndIndex (a : Nat) (bs : List Byte) : (s.store a bs).rndIndex = s.rndIndex := rfl

/-! ## dropRandom -/

@[simp] theorem dropRandom_v : s.dropRandom.v = s.v := by
  unfold dropRandom; split <;> rfl
@[simp] theorem dropRandom_i : s.dropRandom.i = s.i := by
  unfold dropRandom; split <;> rfl
@[simp] theorem dropRandom_pc : s.dropRandom.pc = s.pc := by
  unfold dropRandom; split <;> rfl
@[simp] theorem dropRandom_stack : s.dropRandom.stack = s.stack := by
  unfold dropRandom; split <;> rfl
@[simp] theorem dropRandom_sp : s.dropRandom.sp = s.sp := by
  unfold dropRandom; split <;> rfl
@[simp] theorem dropRandom_dt : s.dropRandom.dt = s.dt := by
  unfold dropRandom; split <;> rfl
@[simp] theorem dropRandom_st : s.dropRandom.st = s.st := by
  unfold dropRandom; split <;> rfl
@[simp] theorem dropRandom_mem : s.dropRandom.mem = s.mem := by
  unfold dropRandom; split <;> rfl
@[simp] theorem dropRandom_disp : s.dropRandom.disp = s.disp := by
  unfold dropRandom; split <;> rfl
@[simp] theorem dropRandom_keys : s.dropRandom.keys = s.keys := by
  unfold dropRandom; split <;> rfl

/-! ## The register read -/

theorem reg_eq (x : RegIdx) : s.reg x = s.v[x] := rfl

/-- A register read after a register write. -/
@[simp] theorem reg_setReg (x y : RegIdx) (b : Byte) : (s.setReg x b).reg y = if y = x then b else s.reg y := by
  by_cases h : y = x
  · subst h; simp [reg]
  · have : x.val ≠ y.val := fun e => h (Fin.ext e.symm)
    simp [reg, h, Vector.getElem_set_ne, this]

/-- A register read after a flag and a result are written: the result wins where x = 0xF (R133). -/
@[simp] theorem reg_setFlagReg (f : Byte) (x y : RegIdx) (b : Byte) :
    (s.setFlagReg f x b).reg y = if y = x then b else if y = regF then f else s.reg y := by
  simp [setFlagReg]

@[simp] theorem reg_setPc (a : Word) (y : RegIdx) : (s.setPc a).reg y = s.reg y := rfl
@[simp] theorem reg_advance (y : RegIdx) : (s.advance).reg y = s.reg y := rfl
@[simp] theorem reg_skipIf (c : Bool) (y : RegIdx) : (s.skipIf c).reg y = s.reg y := rfl
@[simp] theorem reg_setI (a : Word) (y : RegIdx) : (s.setI a).reg y = s.reg y := rfl
@[simp] theorem reg_setDt (b : Byte) (y : RegIdx) : (s.setDt b).reg y = s.reg y := rfl
@[simp] theorem reg_setSt (b : Byte) (y : RegIdx) : (s.setSt b).reg y = s.reg y := rfl
@[simp] theorem reg_setKeys (k : Word) (y : RegIdx) : (s.setKeys k).reg y = s.reg y := rfl
@[simp] theorem reg_setDisp (d : Display) (y : RegIdx) : (s.setDisp d).reg y = s.reg y := rfl
@[simp] theorem reg_store (a : Nat) (bs : List Byte) (y : RegIdx) : (s.store a bs).reg y = s.reg y := rfl
@[simp] theorem reg_dropRandom (y : RegIdx) : s.dropRandom.reg y = s.reg y := by simp [reg]

/-! ## The memory read -/

@[simp] theorem byteAt_setReg (x : RegIdx) (b : Byte) (k : Nat) : (s.setReg x b).byteAt k = s.byteAt k := rfl
@[simp] theorem byteAt_setFlagReg (f : Byte) (x : RegIdx) (b : Byte) (k : Nat) : (s.setFlagReg f x b).byteAt k = s.byteAt k := rfl
@[simp] theorem byteAt_setPc (a : Word) (k : Nat) : (s.setPc a).byteAt k = s.byteAt k := rfl
@[simp] theorem byteAt_advance (k : Nat) : (s.advance).byteAt k = s.byteAt k := rfl
@[simp] theorem byteAt_skipIf (c : Bool) (k : Nat) : (s.skipIf c).byteAt k = s.byteAt k := rfl
@[simp] theorem byteAt_setI (a : Word) (k : Nat) : (s.setI a).byteAt k = s.byteAt k := rfl
@[simp] theorem byteAt_setDt (b : Byte) (k : Nat) : (s.setDt b).byteAt k = s.byteAt k := rfl
@[simp] theorem byteAt_setSt (b : Byte) (k : Nat) : (s.setSt b).byteAt k = s.byteAt k := rfl
@[simp] theorem byteAt_setKeys (ks : Word) (k : Nat) : (s.setKeys ks).byteAt k = s.byteAt k := rfl
@[simp] theorem byteAt_setDisp (d : Display) (k : Nat) : (s.setDisp d).byteAt k = s.byteAt k := rfl
@[simp] theorem byteAt_dropRandom (k : Nat) : s.dropRandom.byteAt k = s.byteAt k := by simp [byteAt]

end Sys2Proof.Machine.State
end

