-- ==== Sys2Proof/Laws/Ops.lean ====
section
/-! SUPPORT. One lemma per shared operation that says all it can do. -/

namespace Sys2Proof.Machine

/-! ## The call stack -/

/-- What a push does (10_state.md R29). -/
theorem State.push_cases (s : State) (a : Word) :
    (s.sp.val = Config.stackDepth ∧ s.push a = none) ∨
    ∃ h : s.sp.val < Config.stackDepth,
      s.push a = some { s with stack := s.stack.set s.sp.val a h, sp := ⟨s.sp.val + 1, by omega⟩ } := by
  by_cases h : s.sp.val < Config.stackDepth
  · exact .inr ⟨h, by simp [push, h]⟩
  · exact .inl ⟨by have := s.sp.isLt; omega, by simp [push, h]⟩

/-- What a pop does (10_state.md R30). -/
theorem State.pop_cases (s : State) :
    (s.sp.val = 0 ∧ s.pop = none) ∨
    ∃ h : 0 < s.sp.val,
      s.pop = some (s.stack[s.sp.val - 1]'(by omega), { s with sp := ⟨s.sp.val - 1, by omega⟩ }) := by
  by_cases h : 0 < s.sp.val
  · exact .inr ⟨h, by simp [pop, h]⟩
  · exact .inl ⟨by omega, by simp [pop, h]⟩

/-! ## Memory ranges -/

/-- The bounds test in one inequality: a non-empty range is out of bounds iff it ends beyond the memory (R55). -/
theorem beyondMemory_iff (base len : Nat) : beyondMemory base len = true ↔ 1 ≤ len ∧ Config.memSize < base + len := by
  simp only [beyondMemory, decide_eq_true_eq, Config.addrMax, Config.memSize]
  omega

/-- An access at I answers its effect or the one fault (R55, R191). -/
theorem State.withRangeAtI_cases (s : State) (len : Nat) (t : State) :
    (beyondMemory s.i.toNat len = true ∧ s.withRangeAtI len t = .fault .memoryAccessViolation) ∨
    (beyondMemory s.i.toNat len = false ∧ s.withRangeAtI len t = .next t) := by
  cases h : beyondMemory s.i.toNat len <;> simp [withRangeAtI, h, raise]

/-- An access at I answers a next state exactly when its range is inside memory, and then its effect. -/
theorem State.withRangeAtI_eq_next (s : State) (len : Nat) (t u : State) :
    s.withRangeAtI len t = .next u ↔ beyondMemory s.i.toNat len = false ∧ u = t := by
  rcases s.withRangeAtI_cases len t with ⟨h, e⟩ | ⟨h, e⟩ <;> simp [h, e, eq_comm]

/-- An access at I faults exactly when its range leaves the memory, and with the one fault. -/
theorem State.withRangeAtI_eq_fault (s : State) (len : Nat) (t : State) (f : Fault) :
    s.withRangeAtI len t = .fault f ↔ beyondMemory s.i.toNat len = true ∧ f = .memoryAccessViolation := by
  rcases s.withRangeAtI_cases len t with ⟨h, e⟩ | ⟨h, e⟩ <;> simp [h, e, eq_comm]

/-- A byte read after a store: the stored byte inside the stored range, the old byte outside it. -/
theorem State.byteAt_store (s : State) (hm : s.mem.wf) (a k : Nat) (bs : List Byte) :
    (s.store a bs).byteAt k = if a ≤ k then bs.getD (k - a) (s.byteAt k) else s.byteAt k :=
  Memory.read_writeBytes s.mem hm.1 a bs k

/-- An access at I is never refused. -/
theorem State.withRangeAtI_ne_refused (s : State) (len : Nat) (t : State) (r : Refusal) :
    s.withRangeAtI len t ≠ .refused r := by
  rcases s.withRangeAtI_cases len t with ⟨_, e⟩ | ⟨_, e⟩ <;> simp [e]

/-! ## Loading and storing register blocks -/

theorem State.length_regsUpTo (s : State) (x : RegIdx) : (s.regsUpTo x).length = x.val + 1 := by
  simp only [regsUpTo, List.length_take, Vector.length_toList]
  omega

/-- The k-th stored register is V[k] (R144). -/
theorem State.getElem_regsUpTo (s : State) (x k : RegIdx) (h : k ≤ x) :
    (s.regsUpTo x)[k.val]'(by rw [length_regsUpTo]; have : k.val ≤ x.val := h; omega) = s.reg k := by
  simp [regsUpTo, reg]

/-- A register after a block load: the byte of the list inside its range, the old value outside (R145). -/
theorem getElem_fillRegs (k : Nat) (v : Vector Byte 16) (bs : List Byte) (j : Nat) (hj : j < 16) :
    (fillRegs k v bs)[j] = if k ≤ j then bs.getD (j - k) v[j] else v[j] := by
  induction bs generalizing k v with
  | nil => simp [fillRegs]
  | cons b bs ih =>
    rw [fillRegs, ih]
    by_cases h1 : k + 1 ≤ j
    · have h2 : k ≤ j := by omega
      have h3 : j - k = (j - (k + 1)) + 1 := by omega
      have h4 : k ≠ j := by omega
      simp [h1, h2, h3, h4]
    · by_cases h2 : k = j
      · subst h2; simp
      · have h3 : ¬ k ≤ j := by omega
        simp [h1, h3, h2]

/-! ## The state after RESET, at any parameters -/

@[simp] theorem State.resetWith_v (p : Config.Params) : (State.resetWith p).v = State.reset.v := rfl
@[simp] theorem State.resetWith_i (p : Config.Params) : (State.resetWith p).i = State.reset.i := rfl
@[simp] theorem State.resetWith_pc (p : Config.Params) : (State.resetWith p).pc = State.reset.pc := rfl
@[simp] theorem State.resetWith_stack (p : Config.Params) : (State.resetWith p).stack = State.reset.stack := rfl
@[simp] theorem State.resetWith_sp (p : Config.Params) : (State.resetWith p).sp = State.reset.sp := rfl
@[simp] theorem State.resetWith_dt (p : Config.Params) : (State.resetWith p).dt = State.reset.dt := rfl
@[simp] theorem State.resetWith_st (p : Config.Params) : (State.resetWith p).st = State.reset.st := rfl
@[simp] theorem State.resetWith_disp (p : Config.Params) : (State.resetWith p).disp = State.reset.disp := rfl
@[simp] theorem State.resetWith_keys (p : Config.Params) : (State.resetWith p).keys = State.reset.keys := rfl
@[simp] theorem State.resetWith_rndIn (p : Config.Params) : (State.resetWith p).rndIn = State.reset.rndIn := rfl
@[simp] theorem State.resetWith_rndIndex (p : Config.Params) : (State.resetWith p).rndIndex = State.reset.rndIndex := rfl

theorem length_resetBytes (p : Config.Params) : (resetBytes p).length = Config.memSize := by
  simp [resetBytes, Config.memSize, Config.fontSize]

/-- Memory after RESET is in canonical form (10_state.md R39). -/
theorem State.resetWith_mem_wf (p : Config.Params) : (State.resetWith p).mem.wf :=
  Memory.writeBytes_wf _ 0 _ Memory.nil_wf (by rw [length_resetBytes]; decide)

/-- Memory after RESET holds the parameters' bytes (R39). -/
theorem State.byteAt_resetWith (p : Config.Params) (a : Nat) (h : a < Config.memSize) :
    (State.resetWith p).byteAt a = (resetBytes p)[a]'(by rw [length_resetBytes]; exact h) := by
  rw [State.resetWith, State.byteAt_store _ Memory.nil_wf]
  simp [List.getD_eq_getElem?_getD, List.getElem?_eq_getElem (show a < (resetBytes p).length by rw [length_resetBytes]; exact h)]

/-- At the default parameters that state is `State.reset`. -/
theorem State.resetWith_default : State.resetWith defaultParams = State.reset := by
  have h : State.reset.mem.writeBytes 0 (resetBytes defaultParams) = [] := by
    refine Memory.writeBytes_initByte 0 _ fun k hk => ?_
    have hf : font.length = 80 := rfl
    simp only [resetBytes, defaultParams, initByte, Nat.zero_add]
    by_cases h : k < 80
    · simp [hf, h, Config.fontSize]; rfl
    · simp [List.getElem_append, hf, h]
  rw [State.resetWith, State.store, h]; rfl

/-! ## Fetching -/

/-- What a fetch answers (40_step_cycle.md R92). -/
theorem State.fetch_cases (s : State) :
    (0x0FFE < s.pc.toNat ∧ s.fetch = none) ∨
    (s.pc.toNat ≤ 0x0FFE ∧
      s.fetch = some (opcodeOfBytes (s.byteAt s.pc.toNat) (s.byteAt (s.pc.toNat + 1)))) := by
  by_cases h : s.pc.toNat > 0x0FFE
  · exact .inl ⟨h, by simp [fetch, h]⟩
  · exact .inr ⟨by omega, by simp [fetch, h]⟩

/-- The two bytes of a word make the word again. -/
theorem opcodeOfBytes_bytes (w : Word) : opcodeOfBytes (highByte w) (lowByte w) = w := by
  apply BitVec.eq_of_toNat_eq
  simp only [opcodeOfBytes, highByte, lowByte, BitVec.toNat_append, BitVec.extractLsb'_toNat]
  rw [← Nat.shiftLeft_add_eq_or_of_lt (Nat.mod_lt _ (by decide))]
  have := w.isLt
  simp only [Nat.shiftRight_eq_div_pow, Nat.shiftLeft_eq]
  omega

/-- An opcode placed where the next fetch reads is what it reads. -/
theorem State.fetch_placeOpcode (s : State) (w : Word) (hm : s.mem.wf) : (s.placeOpcode w).fetch = some w := by
  have hp : s.fetchPlace.toNat ≤ 0x0FFE := by
    unfold fetchPlace
    split
    · decide
    · omega
  have hpc : (s.placeOpcode w).pc = s.fetchPlace := rfl
  have hb (k : Nat) : (s.placeOpcode w).byteAt k =
      if s.fetchPlace.toNat ≤ k then [highByte w, lowByte w].getD (k - s.fetchPlace.toNat) (s.mem.read k)
      else s.mem.read k := Memory.read_writeBytes s.mem hm.1 _ _ k
  simp [fetch, hpc, hb, Nat.not_lt.mpr hp, opcodeOfBytes_bytes]

/-! ## The random input -/

/-- With a byte supplied by the host, that byte is the next draw (R131). -/
theorem State.randomByte_supplied (s : State) (b : Byte) (rest : List Byte) (h : s.rndIn = b :: rest) :
    s.randomByte = b := by simp [randomByte, h]

/-! ## Keys -/

/-- The lowest key of a non-zero snapshot is pressed. -/
theorem lowestKey_pressed (keys : Word) (h : keys ≠ 0#16) : keys.getLsbD (lowestKey keys).val = true := by
  have hall : ∀ k : RegIdx, k ∈ allKeys := by decide
  obtain ⟨j, hj⟩ : ∃ j : RegIdx, keys.getLsbD j.val = true := by
    by_contra hno
    push Not at hno
    apply h
    apply BitVec.eq_of_getLsbD_eq
    intro i hi
    simpa using hno ⟨i, hi⟩
  unfold lowestKey
  cases hf : allKeys.find? (fun k => keys.getLsbD k.val) with
  | none => exact absurd hj (by simpa using List.find?_eq_none.mp hf j (hall j))
  | some k => simpa using List.find?_some hf

/-- `KEY_PICK` answers a pressed key (45_keypad_timers.md R163). -/
theorem keyPick_pressed (keys : Word) (h : keys ≠ 0#16) : keys.getLsbD (keyPick keys).val = true := by
  unfold keyPick
  split
  · exact lowestKey_pressed keys h
  · split
    · assumption
    · exact lowestKey_pressed keys h

end Sys2Proof.Machine
end

