-- ==== Sys2Proof/Laws/Commands.lean ====
section
/-! SUPPORT. What the host's commands do, said once: an accepted LOAD, a STEP, a timer at a TICK, a pixel of the flat
display. -/

namespace Sys2Proof.Machine

/-- A program that fits is copied to 0x200 (46_host_commands.md R172). -/
theorem issue_load (p : Config.Params) (bytes : List Byte) (s : State) (h : bytes.length ≤ 3584) :
    issue p (.load bytes) s = (s.store 0x200 bytes, .status .ok) := by
  simp [issue, State.load, Config.romMax, Config.programStart, Nat.not_lt.mpr h]

/-- A timer at a TICK, as a number (R175). -/
@[simp] theorem tickTimer_toNat : ∀ b : Byte, (tickTimer b).toNat = b.toNat - 1 := by decide

/-- Pixels in flat order: rows of 64, one after the other. -/
theorem getElem?_flatMap_rows (rows : List (Vector Bool 64)) (r c : Nat) (hr : r < rows.length) (hc : c < 64) :
    (rows.flatMap Vector.toList)[r * 64 + c]? = some rows[r][c] := by
  induction rows generalizing r with
  | nil => simp at hr
  | cons v rows ih =>
    cases r with
    | zero => simp [List.flatMap_cons, List.getElem?_append, hc]
    | succ r =>
      have := ih r (by simpa using hr)
      simp only [List.flatMap_cons, List.getElem?_append, Vector.length_toList]
      rw [if_neg (by omega), show (r + 1) * 64 + c - 64 = r * 64 + c by omega, this]
      simp

/-- The flat display holds the pixel of row r and column c at r × 64 + c (10_state.md R33). -/
theorem State.getElem?_flatDisplay (s : State) (r : Fin Config.screenHeight) (c : Fin Config.screenWidth) :
    s.flatDisplay[r.val * 64 + c.val]? = some (pixel s.disp r c) := by
  rw [State.flatDisplay, getElem?_flatMap_rows _ _ _ (by simp) c.isLt]
  simp [pixel]

end Sys2Proof.Machine
end

