-- ==== Sys2Proof/Laws/Decode.lean ====
section
/-! SUPPORT. The fields of an assembled word are the fields it was assembled from (30_encoding.md R72, R73), through the
number a word or a field is. -/

namespace Sys2Proof

@[simp] theorem regOfBits_bitsOfReg (x : RegIdx) : regOfBits (bitsOfReg x) = x := by
  apply Fin.ext
  simp [regOfBits, bitsOfReg]

/-- Two parts laid side by side, as a number. -/
theorem toNat_append_eq {m n : Nat} (a : BitVec m) (b : BitVec n) : (a ++ b).toNat = a.toNat * 2 ^ n + b.toNat := by
  rw [BitVec.toNat_append, ← Nat.shiftLeft_add_eq_or_of_lt b.isLt, Nat.shiftLeft_eq]

theorem toNat_bitsOfReg (x : RegIdx) : (bitsOfReg x).toNat = x.val := by
  simp [bitsOfReg]

/-! ## Words as numbers -/

theorem toNat_wordNnn (op : BitVec 4) (nnn : Addr12) : (wordNnn op nnn).toNat = op.toNat * 4096 + nnn.toNat :=
  toNat_append_eq op nnn

theorem toNat_wordXkk (op : BitVec 4) (x : RegIdx) (kk : Byte) :
    (wordXkk op x kk).toNat = op.toNat * 4096 + x.val * 256 + kk.toNat := by
  refine (toNat_append_eq (op ++ bitsOfReg x) kk).trans ?_
  rw [toNat_append_eq, toNat_bitsOfReg]
  omega

theorem toNat_wordXyn (op : BitVec 4) (x y : RegIdx) (n : BitVec 4) :
    (wordXyn op x y n).toNat = op.toNat * 4096 + x.val * 256 + y.val * 16 + n.toNat := by
  refine (toNat_append_eq (op ++ bitsOfReg x ++ bitsOfReg y) n).trans ?_
  rw [toNat_append_eq, toNat_append_eq, toNat_bitsOfReg, toNat_bitsOfReg]
  omega

theorem toNat_opcodeOfBytes (a b : Byte) : (opcodeOfBytes a b).toNat = a.toNat * 256 + b.toNat :=
  toNat_append_eq a b

/-! ## Fields as numbers -/

theorem toNat_fieldOp (w : Word) : (fieldOp w).toNat = w.toNat / 4096 := by
  have := w.isLt
  simp only [fieldOp, BitVec.extractLsb'_toNat, Nat.shiftRight_eq_div_pow]
  omega

theorem val_fieldX (w : Word) : (fieldX w).val = w.toNat / 256 % 16 := by
  simp [fieldX, regOfBits, BitVec.extractLsb'_toNat, Nat.shiftRight_eq_div_pow]

theorem val_fieldY (w : Word) : (fieldY w).val = w.toNat / 16 % 16 := by
  simp [fieldY, regOfBits, BitVec.extractLsb'_toNat, Nat.shiftRight_eq_div_pow]

theorem toNat_fieldN (w : Word) : (fieldN w).toNat = w.toNat % 16 := by
  simp [fieldN, BitVec.extractLsb'_toNat]

theorem toNat_fieldNnn (w : Word) : (fieldNnn w).toNat = w.toNat % 4096 := by
  simp [fieldNnn, BitVec.extractLsb'_toNat]

theorem toNat_fieldKk (w : Word) : (fieldKk w).toNat = w.toNat % 256 := by
  simp [fieldKk, BitVec.extractLsb'_toNat]

/-! ## Fields of assembled words -/

@[simp] theorem fieldOp_wordNnn (op : BitVec 4) (nnn : Addr12) : fieldOp (wordNnn op nnn) = op := by
  apply BitVec.eq_of_toNat_eq
  rw [toNat_fieldOp, toNat_wordNnn]
  omega

@[simp] theorem fieldNnn_wordNnn (op : BitVec 4) (nnn : Addr12) : fieldNnn (wordNnn op nnn) = nnn := by
  apply BitVec.eq_of_toNat_eq
  rw [toNat_fieldNnn, toNat_wordNnn]
  omega

@[simp] theorem fieldOp_wordXkk (op : BitVec 4) (x : RegIdx) (kk : Byte) : fieldOp (wordXkk op x kk) = op := by
  apply BitVec.eq_of_toNat_eq
  rw [toNat_fieldOp, toNat_wordXkk]
  omega

@[simp] theorem fieldX_wordXkk (op : BitVec 4) (x : RegIdx) (kk : Byte) : fieldX (wordXkk op x kk) = x := by
  apply Fin.ext
  rw [val_fieldX, toNat_wordXkk]
  omega

@[simp] theorem fieldKk_wordXkk (op : BitVec 4) (x : RegIdx) (kk : Byte) : fieldKk (wordXkk op x kk) = kk := by
  apply BitVec.eq_of_toNat_eq
  rw [toNat_fieldKk, toNat_wordXkk]
  omega

@[simp] theorem fieldOp_wordXyn (op : BitVec 4) (x y : RegIdx) (n : BitVec 4) : fieldOp (wordXyn op x y n) = op := by
  apply BitVec.eq_of_toNat_eq
  rw [toNat_fieldOp, toNat_wordXyn]
  omega

@[simp] theorem fieldX_wordXyn (op : BitVec 4) (x y : RegIdx) (n : BitVec 4) : fieldX (wordXyn op x y n) = x := by
  apply Fin.ext
  rw [val_fieldX, toNat_wordXyn]
  omega

@[simp] theorem fieldY_wordXyn (op : BitVec 4) (x y : RegIdx) (n : BitVec 4) : fieldY (wordXyn op x y n) = y := by
  apply Fin.ext
  rw [val_fieldY, toNat_wordXyn]
  omega

@[simp] theorem fieldN_wordXyn (op : BitVec 4) (x y : RegIdx) (n : BitVec 4) : fieldN (wordXyn op x y n) = n := by
  apply BitVec.eq_of_toNat_eq
  rw [toNat_fieldN, toNat_wordXyn]
  omega

end Sys2Proof
end

