-- ==== Sys2Proof/Laws/Display.lean ====
section
/-! SUPPORT. The pixel read after a pixel write, and what drawing one sprite bit, one sprite row and a whole sprite does to
each pixel and to the collision flag. -/

namespace Sys2Proof.Machine

/-- A pixel read after a pixel write. -/
theorem pixel_setPixel (d : Display) (r r' : Fin Config.screenHeight) (c c' : Fin Config.screenWidth) (b : Bool) :
    pixel (setPixel d r c b) r' c' = if r' = r ∧ c' = c then b else pixel d r' c' := by
  by_cases hr : r' = r
  · subst hr
    by_cases hc : c' = c
    · subst hc; simp [pixel, setPixel]
    · have : c.val ≠ c'.val := fun e => hc (Fin.ext e.symm)
      simp [pixel, setPixel, hc, Vector.getElem_set_ne, this]
  · have : r.val ≠ r'.val := fun e => hr (Fin.ext e.symm)
    simp [pixel, setPixel, hr, Vector.getElem_set_ne, this]

/-- Two displays with the same pixels are the same display. -/
theorem display_ext (d e : Display) (h : ∀ r c, pixel d r c = pixel e r c) : d = e := by
  ext r hr c hc
  exact h ⟨r, hr⟩ ⟨c, hc⟩

/-- The pixels after one sprite bit is drawn (44_display.md R151). -/
theorem pixel_drawBit (r r' : Fin Config.screenHeight) (c c' : Fin Config.screenWidth) (bit : Bool) (p : Canvas) :
    pixel (drawBit r c bit p).1 r' c' = (pixel p.1 r' c' ^^ (decide (r' = r ∧ c' = c) && bit)) := by
  by_cases h : r' = r ∧ c' = c
  · obtain ⟨rfl, rfl⟩ := h
    simp [drawBit, pixel_setPixel]
  · simp [drawBit, pixel_setPixel, h]

/-- The collision flag after one sprite bit is drawn (R151). -/
@[simp] theorem drawBit_collision (r : Fin Config.screenHeight) (c : Fin Config.screenWidth) (bit : Bool) (p : Canvas) :
    (drawBit r c bit p).2 = (p.2 || (pixel p.1 r c && bit)) := rfl

/-- The blank display has no pixel lit. -/
@[simp] theorem pixel_blank (r : Fin Config.screenHeight) (c : Fin Config.screenWidth) :
    pixel blankDisplay r c = false := by simp [pixel, blankDisplay]

/-! ## One sprite row -/

/-- The sprite byte of a row has a 1 bit that falls on column c. -/
def rowCovers (a sprite : Byte) (c : Fin Config.screenWidth) : Bool :=
  (List.range 8).any fun i => decide (c = targetCol a i) && sprite.getLsbD (7 - i)

/-- The eight columns of a sprite row are distinct (44_display.md R151). -/
theorem targetCol_inj (a : Byte) (i j : Nat) (hi : i < 8) (hj : j < 8) (h : targetCol a i = targetCol a j) : i = j := by
  have := congrArg Fin.val h
  simp only [targetCol, Config.screenWidth] at this
  omega

/-- The rows of a sprite of at most 32 rows are distinct (R151). -/
theorem targetRow_inj (b : Byte) (i j : Nat) (hij : i < j) (hj : j < i + 32) : targetRow b i ≠ targetRow b j := by
  intro h
  have := congrArg Fin.val h
  simp only [targetRow, Config.screenHeight] at this
  omega

/-- The pixels after some bits of a row, their columns distinct, are drawn. -/
theorem pixel_foldl_drawBit (r r' : Fin Config.screenHeight) (c' : Fin Config.screenWidth)
    (col : Nat → Fin Config.screenWidth) (bit : Nat → Bool) (L : List Nat) (hL : L.Pairwise (fun i j => col i ≠ col j))
    (p : Canvas) :
    pixel (L.foldl (fun q i => drawBit r (col i) (bit i) q) p).1 r' c' =
      (pixel p.1 r' c' ^^ (decide (r' = r) && L.any fun i => decide (c' = col i) && bit i)) := by
  induction L generalizing p with
  | nil => simp
  | cons i L ih =>
    obtain ⟨hi, hL'⟩ := List.pairwise_cons.mp hL
    rw [List.foldl_cons, ih hL', pixel_drawBit, List.any_cons]
    by_cases hr : r' = r
    · by_cases hc : c' = col i
      · have hno : (L.any fun j => decide (c' = col j) && bit j) = false := by
          simp only [List.any_eq_false, Bool.and_eq_true, decide_eq_true_eq, not_and]
          intro j hj e
          exact absurd (hc.symm.trans e) (hi j hj)
        rw [hno]
        simp [hr, hc]
      · simp [hr, hc]
    · simp [hr]

/-- The collision flag after some bits of a row, their columns distinct, are drawn. -/
theorem collision_foldl_drawBit (r : Fin Config.screenHeight) (col : Nat → Fin Config.screenWidth) (bit : Nat → Bool)
    (L : List Nat) (hL : L.Pairwise (fun i j => col i ≠ col j)) (p : Canvas) :
    (L.foldl (fun q i => drawBit r (col i) (bit i) q) p).2 =
      (p.2 || L.any fun i => pixel p.1 r (col i) && bit i) := by
  induction L generalizing p with
  | nil => simp
  | cons i L ih =>
    obtain ⟨hi, hL'⟩ := List.pairwise_cons.mp hL
    have hsame : (L.any fun j => pixel (drawBit r (col i) (bit i) p).1 r (col j) && bit j) =
        L.any fun j => pixel p.1 r (col j) && bit j := by
      rw [Bool.eq_iff_iff]
      simp only [List.any_eq_true]
      refine exists_congr fun j => and_congr_right fun hj => ?_
      rw [pixel_drawBit]
      have : col j ≠ col i := (hi j hj).symm
      simp [this]
    rw [List.foldl_cons, ih hL', hsame, List.any_cons, drawBit_collision, Bool.or_assoc]

theorem targetCol_pairwise (a : Byte) : (List.range 8).Pairwise (fun i j => targetCol a i ≠ targetCol a j) := by
  refine (List.pairwise_lt_range (n := 8)).imp_of_mem ?_
  intro i j hi hj hlt h
  rw [List.mem_range] at hi hj
  exact absurd (targetCol_inj a i j hi hj h) (by omega)

/-- The pixels after one sprite row is drawn (R151). -/
theorem pixel_drawRow (a sprite : Byte) (r r' : Fin Config.screenHeight) (c' : Fin Config.screenWidth) (p : Canvas) :
    pixel (drawRow a r sprite p).1 r' c' = (pixel p.1 r' c' ^^ (decide (r' = r) && rowCovers a sprite c')) :=
  pixel_foldl_drawBit r r' c' (targetCol a) (fun i => sprite.getLsbD (7 - i)) _ (targetCol_pairwise a) p

/-- The collision flag after one sprite row is drawn (R151). -/
theorem collision_drawRow (a sprite : Byte) (r : Fin Config.screenHeight) (p : Canvas) :
    (drawRow a r sprite p).2 = true ↔ p.2 = true ∨ ∃ c, pixel p.1 r c = true ∧ rowCovers a sprite c = true := by
  rw [drawRow, collision_foldl_drawBit r (targetCol a) (fun i => sprite.getLsbD (7 - i)) _ (targetCol_pairwise a) p]
  simp only [Bool.or_eq_true, List.any_eq_true, Bool.and_eq_true, rowCovers, decide_eq_true_eq]
  refine or_congr_right ⟨?_, ?_⟩
  · rintro ⟨i, hi, hp, hb⟩
    exact ⟨targetCol a i, hp, i, hi, rfl, hb⟩
  · rintro ⟨c, hp, i, hi, rfl, hb⟩
    exact ⟨i, hi, hp, hb⟩

/-! ## The whole sprite -/

/-- A sprite drawn from its row number `row` on has a 1 bit over the pixel (r, c). -/
def rowsCover (a b : Byte) (row : Nat) : List Byte → Fin Config.screenHeight → Fin Config.screenWidth → Bool
  | [], _, _ => false
  | sprite :: rest, r, c => (decide (r = targetRow b row) && rowCovers a sprite c) || rowsCover a b (row + 1) rest r c

/-- Some row of the sprite, and only such a row, covers a pixel. -/
theorem rowsCover_iff (a b : Byte) (row : Nat) (sprite : List Byte) (r : Fin Config.screenHeight)
    (c : Fin Config.screenWidth) :
    rowsCover a b row sprite r c = true ↔
      ∃ k, ∃ h : k < sprite.length, r = targetRow b (row + k) ∧ rowCovers a sprite[k] c = true := by
  induction sprite generalizing row with
  | nil => simp [rowsCover]
  | cons s rest ih =>
    simp only [rowsCover, Bool.or_eq_true, Bool.and_eq_true, decide_eq_true_eq, ih]
    constructor
    · rintro (⟨hr, hc⟩ | ⟨k, hk, hr, hc⟩)
      · exact ⟨0, by simp, by simpa using hr, by simpa using hc⟩
      · exact ⟨k + 1, by simpa using hk, by rw [hr]; congr 1; omega, by simpa using hc⟩
    · rintro ⟨k, hk, hr, hc⟩
      cases k with
      | zero => exact .inl ⟨by simpa using hr, by simpa using hc⟩
      | succ k => exact .inr ⟨k, by simpa using hk, by rw [hr]; congr 1; omega, by simpa using hc⟩

/-- No later row of a sprite of at most 32 rows falls on the row of the first. -/
theorem rowsCover_first (a b : Byte) (row : Nat) (rest : List Byte) (c : Fin Config.screenWidth)
    (h : rest.length < 32) : rowsCover a b (row + 1) rest (targetRow b row) c = false := by
  rw [Bool.eq_false_iff, ne_eq, rowsCover_iff]
  rintro ⟨k, hk, hr, -⟩
  exact targetRow_inj b row (row + 1 + k) (by omega) (by omega) hr

/-- The pixels after a sprite of at most 32 rows is drawn: each is XORed with the sprite bit over it (R151). -/
theorem pixel_drawRows (a b : Byte) (row : Nat) (sprite : List Byte) (h : sprite.length ≤ 32) (p : Canvas)
    (r : Fin Config.screenHeight) (c : Fin Config.screenWidth) :
    pixel (drawRows a b row sprite p).1 r c = (pixel p.1 r c ^^ rowsCover a b row sprite r c) := by
  induction sprite generalizing row p with
  | nil => simp [drawRows, rowsCover]
  | cons s rest ih =>
    simp only [List.length_cons] at h
    rw [drawRows, ih (row + 1) (by omega), pixel_drawRow, rowsCover]
    by_cases hr : r = targetRow b row
    · subst hr
      rw [rowsCover_first a b row rest c (by omega)]
      simp
    · simp [hr]

/-- The collision flag after a sprite of at most 32 rows is drawn: a lit pixel lay under a sprite bit (R151). -/
theorem collision_drawRows (a b : Byte) (row : Nat) (sprite : List Byte) (h : sprite.length ≤ 32) (p : Canvas) :
    (drawRows a b row sprite p).2 = true ↔
      p.2 = true ∨ ∃ r c, pixel p.1 r c = true ∧ rowsCover a b row sprite r c = true := by
  induction sprite generalizing row p with
  | nil => simp [drawRows, rowsCover]
  | cons s rest ih =>
    simp only [List.length_cons] at h
    rw [drawRows, ih (row + 1) (by omega), collision_drawRow, or_assoc]
    refine or_congr_right ⟨?_, ?_⟩
    · rintro (⟨c, hp, hc⟩ | ⟨r, c, hp, hc⟩)
      · exact ⟨_, c, hp, by simp [rowsCover, hc]⟩
      · refine ⟨r, c, ?_, by simp [rowsCover, hc]⟩
        have hr : r ≠ targetRow b row := by
          rintro rfl
          rw [rowsCover_first a b row rest c (by omega)] at hc
          exact absurd hc (by decide)
        simpa [pixel_drawRow, hr] using hp
    · rintro ⟨r, c, hp, hc⟩
      simp only [rowsCover, Bool.or_eq_true, Bool.and_eq_true, decide_eq_true_eq] at hc
      rcases hc with ⟨rfl, hc⟩ | hc
      · exact .inl ⟨c, hp, hc⟩
      · refine .inr ⟨r, c, ?_, hc⟩
        have hr : r ≠ targetRow b row := by
          rintro rfl
          rw [rowsCover_first a b row rest c (by omega)] at hc
          exact absurd hc (by decide)
        simpa [pixel_drawRow, hr] using hp

end Sys2Proof.Machine
end

