-- ==== Sys2Proof/Laws/Exec.lean ====
section
/-! SUPPORT. What the meanings that can fault answer, said once per meaning: the next state and its condition, or the
fault and its condition (the other meanings are one equation each, and always answer a next state); and that only Cxkk
looks at the random input. -/

namespace Sys2Proof.Machine

/-- RET answers a next state exactly when the stack is not empty (41_flow_control.md R100). -/
theorem execRet_eq_next (s t : State) :
    execRet s = .next t ↔ ∃ h : 0 < s.sp.val,
      t = ({ s with sp := ⟨s.sp.val - 1, by omega⟩ } : State).setPc (s.stack[s.sp.val - 1]'(by omega)) := by
  rcases s.pop_cases with ⟨h, e⟩ | ⟨h, e⟩ <;> simp [execRet, e, h, raise, eq_comm]

/-- RET faults exactly when the stack is empty (60_exceptions.md R193). -/
theorem execRet_eq_fault (s : State) (f : Fault) :
    execRet s = .fault f ↔ s.sp.val = 0 ∧ f = .stackUnderflow := by
  rcases s.pop_cases with ⟨h, e⟩ | ⟨h, e⟩
  · simp [execRet, e, h, raise, eq_comm]
  · have : s.sp.val ≠ 0 := by omega
    simp only [execRet, e, this, false_and, iff_false]
    simp

/-- CALL answers a next state exactly when the stack is not full (R102). -/
theorem execCall_eq_next (nnn : Addr12) (s t : State) :
    execCall nnn s = .next t ↔ ∃ h : s.sp.val < Config.stackDepth,
      t = ({ s with stack := s.stack.set s.sp.val (s.pc + 2#16) h, sp := ⟨s.sp.val + 1, by omega⟩ } : State).setPc
        (addrOperand nnn) := by
  rcases s.push_cases (s.pc + 2#16) with ⟨h, e⟩ | ⟨h, e⟩
  · simp [execCall, e, h, raise]
  · simp [execCall, e, h, eq_comm]

/-- CALL faults exactly when the stack is full (60_exceptions.md R192). -/
theorem execCall_eq_fault (nnn : Addr12) (s : State) (f : Fault) :
    execCall nnn s = .fault f ↔ s.sp.val = Config.stackDepth ∧ f = .stackOverflow := by
  rcases s.push_cases (s.pc + 2#16) with ⟨h, e⟩ | ⟨h, e⟩
  · simp [execCall, e, h, raise, eq_comm]
  · have : s.sp.val ≠ Config.stackDepth := by omega
    simp [execCall, e, this]

/-- The key wait answers the same state or the stored key (45_keypad_timers.md R163). -/
theorem execLdVxK_cases (x : RegIdx) (s : State) :
    (s.keys = 0#16 ∧ execLdVxK x s = .next s) ∨
    (s.keys ≠ 0#16 ∧ execLdVxK x s = .next (s.setReg x (keyByte (keyPick s.keys))).advance) := by
  by_cases h : s.keys = 0#16
  · exact .inl ⟨h, by simp [execLdVxK, h]⟩
  · exact .inr ⟨h, by simp [execLdVxK, h]⟩

/-- Every instruction but Cxkk answers the same with any random input, and leaves it as it is (42_load_alu.md R131). -/
theorem exec_of_rndIn (i : Instr) (hi : ∀ x kk, i ≠ .rnd x kk) (s : State) (bs : List Byte) :
    exec i { s with rndIn := bs } = mapNext (fun t => { t with rndIn := bs }) (exec i s) := by
  have range : ∀ (len : Nat) (t : State), State.withRangeAtI { s with rndIn := bs } len { t with rndIn := bs } =
      mapNext (fun t => { t with rndIn := bs }) (s.withRangeAtI len t) := by
    intro len t
    simp only [State.withRangeAtI]
    by_cases h : beyondMemory s.i.toNat len = true <;> simp [h] <;> rfl
  cases i with
  | rnd x kk => exact absurd rfl (hi x kk)
  | ret => simp only [exec, execRet, State.pop]; by_cases h : 0 < s.sp.val <;> simp [h] <;> rfl
  | call nnn => simp only [exec, execCall, State.push]; by_cases h : s.sp.val < Config.stackDepth <;> simp [h] <;> rfl
  | ldVxK x => simp only [exec, execLdVxK]; split <;> rfl
  | drw x y n => exact range n ((s.setDisp (s.drawn x y n).1).setReg regF (flagByte (s.drawn x y n).2)).advance
  | ldB x => exact range 3 (s.store s.i.toNat (decimalDigits (s.reg x))).advance
  | ldMemVx x => exact range (x.val + 1) (s.store s.i.toNat (s.regsUpTo x)).advance
  | ldVxMem x => exact range (x.val + 1) ({ s with v := fillRegs 0 s.v (s.bytesAt s.i.toNat (x.val + 1)) } : State).advance
  | _ => rfl

end Sys2Proof.Machine
end

