-- ==== Sys2Proof/Laws/PerInstr.lean ====
section
/-! SUPPORT. The families of LAWS.json: statements about every instruction as syntax, one lemma per constructor. -/

namespace Sys2Proof

/-- Masking out the operand bits of a word of format NNN. -/
theorem selects_wordNnn (op : BitVec 4) (nnn : Addr12) : wordNnn op nnn &&& 0xF000#16 = op ++ 0#12 := by
  have h : (0xF000#16) = (0xF#4 ++ 0x000#12) := by decide
  rw [h, wordNnn, BitVec.and_append]
  rw [show op &&& 0xF#4 = op from BitVec.and_allOnes]
  simp

/-- Masking out the operand bits of a word of format XKK. -/
theorem selects_wordXkk (op : BitVec 4) (x : RegIdx) (kk : Byte) : wordXkk op x kk &&& 0xF000#16 = op ++ 0#4 ++ 0#8 := by
  have h : (0xF000#16) = (0xF#4 ++ 0x0#4 ++ 0x00#8) := by decide
  rw [h, wordXkk, BitVec.and_append, BitVec.and_append]
  rw [show op &&& 0xF#4 = op from BitVec.and_allOnes]
  simp

/-- Masking out the operand bits of a word of format X. -/
theorem selects_wordX (op : BitVec 4) (x : RegIdx) (kk : Byte) : wordXkk op x kk &&& 0xF0FF#16 = op ++ 0#4 ++ kk := by
  have h : (0xF0FF#16) = (0xF#4 ++ 0x0#4 ++ 0xFF#8) := by decide
  rw [h, wordXkk, BitVec.and_append, BitVec.and_append]
  rw [show op &&& 0xF#4 = op from BitVec.and_allOnes, show kk &&& 0xFF#8 = kk from BitVec.and_allOnes]
  simp

/-- Masking out the operand bits of a word of format XY. -/
theorem selects_wordXy (op : BitVec 4) (x y : RegIdx) (n : BitVec 4) :
    wordXyn op x y n &&& 0xF00F#16 = op ++ 0#4 ++ 0#4 ++ n := by
  have h : (0xF00F#16) = (0xF#4 ++ 0x0#4 ++ 0x0#4 ++ 0xF#4) := by decide
  rw [h, wordXyn, BitVec.and_append, BitVec.and_append, BitVec.and_append]
  rw [show op &&& 0xF#4 = op from BitVec.and_allOnes, show n &&& 0xF#4 = n from BitVec.and_allOnes]
  simp

/-- Masking out the operand bits of a word of format XYN. -/
theorem selects_wordXyn (op : BitVec 4) (x y : RegIdx) (n : BitVec 4) :
    wordXyn op x y n &&& 0xF000#16 = op ++ 0#4 ++ 0#4 ++ 0#4 := by
  have h : (0xF000#16) = (0xF#4 ++ 0x0#4 ++ 0x0#4 ++ 0x0#4) := by decide
  rw [h, wordXyn, BitVec.and_append, BitVec.and_append, BitVec.and_append]
  rw [show op &&& 0xF#4 = op from BitVec.and_allOnes]
  simp

end Sys2Proof

namespace Sys2Proof.Laws.EncodeRow

/-- The opcode of an instruction is selected by the instruction's own row of the opcode map (30_encoding.md R75, R76). -/
def Statement (i : Instr) : Prop := i.row.selects (encode i) = true

theorem cls : Statement .cls := by unfold Statement; decide

theorem ret : Statement .ret := by unfold Statement; decide

theorem jp (nnn : Addr12) : Statement (.jp nnn) := by
  simp [Statement, OpcodeRow.selects, Instr.row, encode, selects_wordNnn]

theorem call (nnn : Addr12) : Statement (.call nnn) := by
  simp [Statement, OpcodeRow.selects, Instr.row, encode, selects_wordNnn]

theorem seByte (x : RegIdx) (kk : Byte) : Statement (.seByte x kk) := by
  simp [Statement, OpcodeRow.selects, Instr.row, encode, selects_wordXkk]

theorem sneByte (x : RegIdx) (kk : Byte) : Statement (.sneByte x kk) := by
  simp [Statement, OpcodeRow.selects, Instr.row, encode, selects_wordXkk]

theorem seReg (x y : RegIdx) : Statement (.seReg x y) := by
  simp [Statement, OpcodeRow.selects, Instr.row, encode, selects_wordXy]

theorem ldByte (x : RegIdx) (kk : Byte) : Statement (.ldByte x kk) := by
  simp [Statement, OpcodeRow.selects, Instr.row, encode, selects_wordXkk]

theorem addByte (x : RegIdx) (kk : Byte) : Statement (.addByte x kk) := by
  simp [Statement, OpcodeRow.selects, Instr.row, encode, selects_wordXkk]

theorem ldReg (x y : RegIdx) : Statement (.ldReg x y) := by
  simp [Statement, OpcodeRow.selects, Instr.row, encode, selects_wordXy]

theorem orReg (x y : RegIdx) : Statement (.orReg x y) := by
  simp [Statement, OpcodeRow.selects, Instr.row, encode, selects_wordXy]

theorem andReg (x y : RegIdx) : Statement (.andReg x y) := by
  simp [Statement, OpcodeRow.selects, Instr.row, encode, selects_wordXy]

theorem xorReg (x y : RegIdx) : Statement (.xorReg x y) := by
  simp [Statement, OpcodeRow.selects, Instr.row, encode, selects_wordXy]

theorem addReg (x y : RegIdx) : Statement (.addReg x y) := by
  simp [Statement, OpcodeRow.selects, Instr.row, encode, selects_wordXy]

theorem sub (x y : RegIdx) : Statement (.sub x y) := by
  simp [Statement, OpcodeRow.selects, Instr.row, encode, selects_wordXy]

theorem shr (x y : RegIdx) : Statement (.shr x y) := by
  simp [Statement, OpcodeRow.selects, Instr.row, encode, selects_wordXy]

theorem subn (x y : RegIdx) : Statement (.subn x y) := by
  simp [Statement, OpcodeRow.selects, Instr.row, encode, selects_wordXy]

theorem shl (x y : RegIdx) : Statement (.shl x y) := by
  simp [Statement, OpcodeRow.selects, Instr.row, encode, selects_wordXy]

theorem sneReg (x y : RegIdx) : Statement (.sneReg x y) := by
  simp [Statement, OpcodeRow.selects, Instr.row, encode, selects_wordXy]

theorem ldI (nnn : Addr12) : Statement (.ldI nnn) := by
  simp [Statement, OpcodeRow.selects, Instr.row, encode, selects_wordNnn]

theorem jpV0 (nnn : Addr12) : Statement (.jpV0 nnn) := by
  simp [Statement, OpcodeRow.selects, Instr.row, encode, selects_wordNnn]

theorem rnd (x : RegIdx) (kk : Byte) : Statement (.rnd x kk) := by
  simp [Statement, OpcodeRow.selects, Instr.row, encode, selects_wordXkk]

theorem drw (x y : RegIdx) (n : Nat) : Statement (.drw x y n) := by
  simp [Statement, OpcodeRow.selects, Instr.row, encode, selects_wordXyn]

theorem skp (x : RegIdx) : Statement (.skp x) := by
  simp [Statement, OpcodeRow.selects, Instr.row, encode, selects_wordX]

theorem sknp (x : RegIdx) : Statement (.sknp x) := by
  simp [Statement, OpcodeRow.selects, Instr.row, encode, selects_wordX]

theorem ldVxDt (x : RegIdx) : Statement (.ldVxDt x) := by
  simp [Statement, OpcodeRow.selects, Instr.row, encode, selects_wordX]

theorem ldVxK (x : RegIdx) : Statement (.ldVxK x) := by
  simp [Statement, OpcodeRow.selects, Instr.row, encode, selects_wordX]

theorem ldDtVx (x : RegIdx) : Statement (.ldDtVx x) := by
  simp [Statement, OpcodeRow.selects, Instr.row, encode, selects_wordX]

theorem ldStVx (x : RegIdx) : Statement (.ldStVx x) := by
  simp [Statement, OpcodeRow.selects, Instr.row, encode, selects_wordX]

theorem addI (x : RegIdx) : Statement (.addI x) := by
  simp [Statement, OpcodeRow.selects, Instr.row, encode, selects_wordX]

theorem ldF (x : RegIdx) : Statement (.ldF x) := by
  simp [Statement, OpcodeRow.selects, Instr.row, encode, selects_wordX]

theorem ldB (x : RegIdx) : Statement (.ldB x) := by
  simp [Statement, OpcodeRow.selects, Instr.row, encode, selects_wordX]

theorem ldMemVx (x : RegIdx) : Statement (.ldMemVx x) := by
  simp [Statement, OpcodeRow.selects, Instr.row, encode, selects_wordX]

theorem ldVxMem (x : RegIdx) : Statement (.ldVxMem x) := by
  simp [Statement, OpcodeRow.selects, Instr.row, encode, selects_wordX]

end Sys2Proof.Laws.EncodeRow
end

