-- ==== Sys2Proof/Laws/Step.lean ====
section
/-! SUPPORT. What a step can do, said once. -/

namespace Sys2Proof.Machine

/-- A step faults in the fetch, executes the decoded instruction, or is the unmatched no-operation (40_step_cycle.md
R91). -/
theorem step_cases (s : State) :
    (s.fetch = none ∧ step s = .fault .memoryAccessViolation) ∨
    (∃ w i, s.fetch = some w ∧ decodeWord w = some i ∧ step s = exec i s) ∨
    (∃ w, s.fetch = some w ∧ decodeWord w = none ∧ step s = .next s.advance) := by
  unfold step
  cases hf : s.fetch with
  | none => exact .inl ⟨rfl, rfl⟩
  | some w =>
    cases hd : decodeWord w with
    | none => exact .inr (.inr ⟨w, rfl, hd, by simp [hd, execUnmatched]⟩)
    | some i => exact .inr (.inl ⟨w, i, rfl, hd, by simp [hd]⟩)

end Sys2Proof.Machine
end

