-- ==== Sys2Proof/Tests/Slice0.lean ====
section
/-! SUPPORT. The model's own tests: the WellFormed check, a written-out word for every constructor, one or two single
steps per instruction, and for every obligation with hypotheses a witness that meets them. Expected results are those
of 95_test_vectors.md (the vector is named) or are worked out by hand from the rule named. -/

namespace Sys2Proof.Tests

open Sys2Proof Sys2Proof.Machine

/-! ## WellFormed (30_encoding.md R74): the one check, and the term it refuses -/

theorem test_wellFormed_refuses_height_16 : ¬ (Instr.drw 0 0 16).WellFormed := by decide

theorem test_wellFormed_accepts_heights_0_and_15 : (Instr.drw 0 0 0).WellFormed ∧ (Instr.drw 15 15 15).WellFormed := by
  decide

/-! ## Decoding: words written out bit by bit from the patterns of 30_encoding.md R76 -/

theorem test_decode_family_0_to_2 :
    decodeTableWord 16 0b0000000011100000 = some .cls ∧ decodeTableWord 16 0b0000000011101110 = some .ret ∧
    decodeTableWord 16 0b0001101010111100 = some (.jp 0xABC) ∧
    decodeTableWord 16 0b0010101010111100 = some (.call 0xABC) := by decide

theorem test_decode_family_3_to_7 :
    decodeTableWord 16 0b0011101001000010 = some (.seByte 10 0x42) ∧
    decodeTableWord 16 0b0100101001000010 = some (.sneByte 10 0x42) ∧
    decodeTableWord 16 0b0101101010110000 = some (.seReg 10 11) ∧
    decodeTableWord 16 0b0110101001000010 = some (.ldByte 10 0x42) ∧
    decodeTableWord 16 0b0111101001000010 = some (.addByte 10 0x42) := by decide

theorem test_decode_family_8 :
    decodeTableWord 16 0b1000101010110000 = some (.ldReg 10 11) ∧
    decodeTableWord 16 0b1000101010110001 = some (.orReg 10 11) ∧
    decodeTableWord 16 0b1000101010110010 = some (.andReg 10 11) ∧
    decodeTableWord 16 0b1000101010110011 = some (.xorReg 10 11) ∧
    decodeTableWord 16 0b1000101010110100 = some (.addReg 10 11) ∧
    decodeTableWord 16 0b1000101010110101 = some (.sub 10 11) ∧
    decodeTableWord 16 0b1000101010110110 = some (.shr 10 11) ∧
    decodeTableWord 16 0b1000101010110111 = some (.subn 10 11) ∧
    decodeTableWord 16 0b1000101010111110 = some (.shl 10 11) := by decide

theorem test_decode_family_9_to_E :
    decodeTableWord 16 0b1001101010110000 = some (.sneReg 10 11) ∧
    decodeTableWord 16 0b1010101010111100 = some (.ldI 0xABC) ∧
    decodeTableWord 16 0b1011101010111100 = some (.jpV0 0xABC) ∧
    decodeTableWord 16 0b1100101001000010 = some (.rnd 10 0x42) ∧
    decodeTableWord 16 0b1101101010111100 = some (.drw 10 11 12) ∧
    decodeTableWord 16 0b1110101010011110 = some (.skp 10) ∧
    decodeTableWord 16 0b1110101010100001 = some (.sknp 10) := by decide

theorem test_decode_family_F :
    decodeTableWord 16 0b1111101000000111 = some (.ldVxDt 10) ∧
    decodeTableWord 16 0b1111101000001010 = some (.ldVxK 10) ∧
    decodeTableWord 16 0b1111101000010101 = some (.ldDtVx 10) ∧
    decodeTableWord 16 0b1111101000011000 = some (.ldStVx 10) ∧
    decodeTableWord 16 0b1111101000011110 = some (.addI 10) ∧
    decodeTableWord 16 0b1111101000101001 = some (.ldF 10) ∧
    decodeTableWord 16 0b1111101000110011 = some (.ldB 10) ∧
    decodeTableWord 16 0b1111101001010101 = some (.ldMemVx 10) ∧
    decodeTableWord 16 0b1111101001100101 = some (.ldVxMem 10) := by decide

/-- The unmatched opcodes of 95_test_vectors.md, "Unmatched opcodes", some of each family. -/
theorem test_decode_unmatched :
    [0x0000, 0x0123, 0x00E1, 0x0FFF, 0x5AB1, 0x8AB8, 0x8ABF, 0x9AB1, 0xE09F, 0xE0A0, 0xF008, 0xF054, 0xFFFF].all
      (fun w => decodeTableWord 16 w == none) = true := by decide

theorem test_decode_too_short : decode [] = .rejected .truncated ∧ decode [0x60] = .rejected .truncated := by decide

/-! ## Single steps -/

/-- The state `s` with the opcode `w` at pc, run one step; `p` is asked of the next state. -/
def stepsTo (w : Word) (s : State) (p : State → Bool) : Bool :=
  match Sys2Proof.Machine.step (s.placeOpcode w) with
  | .next t => p t
  | .fault _ => false
  | .refused _ => false

/-- The instruction `w` at pc raises `f`. -/
def raises (w : Word) (s : State) (f : Fault) : Bool :=
  match Sys2Proof.Machine.step (s.placeOpcode w) with
  | .next _ => false
  | .fault g => decide (g = f)
  | .refused _ => false

/-- Two registers set in the reset state. -/
def regs2 (x : RegIdx) (a : Byte) (y : RegIdx) (b : Byte) : State := (State.reset.setReg x a).setReg y b

/-- T-FLOW-9, step 1. -/
theorem test_call : stepsTo 0x2204 State.reset
    (fun t => t.pc == 0x0204 && t.sp == 1 && t.stack[0] == 0x0202) = true := by decide

/-- P5, step 17. -/
theorem test_call_full : raises 0x2200 { State.reset with sp := 16 } .stackOverflow = true := by decide

/-- S9, step 2. -/
theorem test_ret : stepsTo 0x00EE { State.reset with sp := 1, stack := State.reset.stack.set 0 0x0302 }
    (fun t => t.pc == 0x0302 && t.sp == 0) = true := by decide

/-- T-FLOW-8. -/
theorem test_ret_empty : raises 0x00EE State.reset .stackUnderflow = true := by decide

/-- T-FETCH-1, step 1. -/
theorem test_jp : stepsTo 0x1FFF State.reset (fun t => t.pc == 0x0FFF) = true := by decide

/-- T-FLOW-4, 5. -/
theorem test_seByte : stepsTo 0x3A42 (State.reset.setReg 10 0x42) (fun t => t.pc == 0x0204) = true ∧
    stepsTo 0x3A42 (State.reset.setReg 10 0x41) (fun t => t.pc == 0x0202) = true := by decide

/-- T-FLOW-6, 7. -/
theorem test_sneByte : stepsTo 0x4A42 (State.reset.setReg 10 0x42) (fun t => t.pc == 0x0202) = true ∧
    stepsTo 0x4A42 (State.reset.setReg 10 0x41) (fun t => t.pc == 0x0204) = true := by decide

/-- T-FLOW-10, 11. -/
theorem test_seReg : stepsTo 0x5AB0 (regs2 10 0x07 11 0x07) (fun t => t.pc == 0x0204) = true ∧
    stepsTo 0x5AB0 (regs2 10 0x07 11 0x08) (fun t => t.pc == 0x0202) = true := by decide

/-- T-FLOW-12, 13. -/
theorem test_sneReg : stepsTo 0x9AB0 (regs2 10 0x07 11 0x07) (fun t => t.pc == 0x0202) = true ∧
    stepsTo 0x9AB0 (regs2 10 0x07 11 0x08) (fun t => t.pc == 0x0204) = true := by decide

/-- T-FLOW-18, 20. -/
theorem test_jpV0 : stepsTo 0xB2FF (State.reset.setReg 0 0x01) (fun t => t.pc == 0x0300) = true ∧
    stepsTo 0xBFFF (State.reset.setReg 0 0xFF) (fun t => t.pc == 0x10FE) = true := by decide

/-- T-LD-1, T-LD-2. -/
theorem test_ldByte : stepsTo 0x6005 State.reset (fun t => t.reg 0 == 0x05 && t.pc == 0x0202) = true ∧
    stepsTo 0x6FFF State.reset (fun t => t.reg 15 == 0xFF) = true := by decide

/-- T-LD-4, T-LD-8. -/
theorem test_addByte :
    stepsTo 0x7401 (regs2 4 0xFF 15 0x09) (fun t => t.reg 4 == 0x00 && t.reg 15 == 0x09) = true ∧
    stepsTo 0x7F02 (State.reset.setReg 15 0xFF) (fun t => t.reg 15 == 0x01) = true := by decide

/-- T-LD-9. -/
theorem test_ldReg : stepsTo 0x8340 (regs2 3 0x12 4 0x9A) (fun t => t.reg 3 == 0x9A && t.reg 4 == 0x9A) = true := by
  decide

/-- T-ALU, a = F0, b = 3C. -/
theorem test_logic :
    stepsTo 0x8121 ((regs2 1 0xF0 2 0x3C).setReg 15 0x09) (fun t => t.reg 1 == 0xFC && t.reg 15 == 0x09) = true ∧
    stepsTo 0x8122 ((regs2 1 0xF0 2 0x3C).setReg 15 0x09) (fun t => t.reg 1 == 0x30 && t.reg 15 == 0x09) = true ∧
    stepsTo 0x8123 ((regs2 1 0xF0 2 0x3C).setReg 15 0x09) (fun t => t.reg 1 == 0xCC && t.reg 15 == 0x09) = true := by
  decide

/-- T-ALU-ADD, FF and 01. -/
theorem test_addReg : stepsTo 0x8124 (regs2 1 0xFF 2 0x01) (fun t => t.reg 1 == 0x00 && t.reg 15 == 0x01) = true := by
  decide

/-- T-ALU-OVL: for x = F the result wins, and y = F reads the old VF. -/
theorem test_addReg_overlap : stepsTo 0x8F24 (regs2 15 0x01 2 0x02) (fun t => t.reg 15 == 0x03) = true ∧
    stepsTo 0x81F4 (regs2 1 0xFF 15 0x01) (fun t => t.reg 1 == 0x00 && t.reg 15 == 0x01) = true := by decide

/-- T-ALU-SUB, 03 and 05, then 07 and 07. -/
theorem test_sub : stepsTo 0x8125 (regs2 1 0x03 2 0x05) (fun t => t.reg 1 == 0xFE && t.reg 15 == 0x00) = true ∧
    stepsTo 0x8125 (regs2 1 0x07 2 0x07) (fun t => t.reg 1 == 0x00 && t.reg 15 == 0x00) = true := by decide

/-- T-ALU-SUBN, 03 and 05, then 07 and 07. -/
theorem test_subn : stepsTo 0x8127 (regs2 1 0x03 2 0x05) (fun t => t.reg 1 == 0x02 && t.reg 15 == 0x01) = true ∧
    stepsTo 0x8127 (regs2 1 0x07 2 0x07) (fun t => t.reg 1 == 0x00 && t.reg 15 == 0x00) = true := by decide

/-- T-ALU-SHR, FF. -/
theorem test_shr : stepsTo 0x8126 (regs2 1 0xFF 2 0xEE)
    (fun t => t.reg 1 == 0x7F && t.reg 15 == 0x01 && t.reg 2 == 0xEE) = true := by decide

/-- T-ALU-SHL, C1. -/
theorem test_shl : stepsTo 0x812E (regs2 1 0xC1 2 0xEE)
    (fun t => t.reg 1 == 0x82 && t.reg 15 == 0x01 && t.reg 2 == 0xEE) = true := by decide

/-- T-RND-1. -/
theorem test_rnd : stepsTo 0xC30F { State.reset with rndIn := [0xAB, 0xFF] }
    (fun t => t.reg 3 == 0x0B && t.rndIn == [0xFF]) = true := by decide

/-- T-IDX-1. -/
theorem test_ldI : stepsTo 0xA2F0 State.reset (fun t => t.i == 0x02F0) = true := by decide

/-- T-IDX-5, T-IDX-6. -/
theorem test_addI :
    stepsTo 0xF21E ((regs2 2 0xFF 15 0x09).setI 0x0FFF) (fun t => t.i == 0x10FE && t.reg 15 == 0x09) = true ∧
    stepsTo 0xF21E ((regs2 2 0x01 15 0x09).setI 0xFFFF) (fun t => t.i == 0x0000 && t.reg 15 == 0x09) = true := by decide

/-- T-IDX-8, T-IDX-9. -/
theorem test_ldF : stepsTo 0xF529 (State.reset.setReg 5 0x0F) (fun t => t.i == 0x004B) = true ∧
    stepsTo 0xF529 (State.reset.setReg 5 0xFF) (fun t => t.i == 0x04FB) = true := by decide

/-- BCD of 234, T-IDX-22. -/
theorem test_ldB : stepsTo 0xF533 ((State.reset.setReg 5 234).setI 0x0300)
    (fun t => t.bytesAt 0x0300 3 == [2, 3, 4] && t.i == 0x0300) = true ∧
    raises 0xF033 ((State.reset.setReg 0 0xFF).setI 0x0FFE) .memoryAccessViolation = true := by decide

/-- T-IDX-10 with two registers, T-IDX-16. -/
theorem test_ldMemVx : stepsTo 0xF155 ((regs2 0 0x11 1 0x22).setI 0x0400)
    (fun t => t.bytesAt 0x0400 3 == [0x11, 0x22, 0x00] && t.i == 0x0400) = true ∧
    raises 0xF155 (State.reset.setI 0x0FFF) .memoryAccessViolation = true := by decide

/-- T-IDX-12 (the default font), T-IDX-19. -/
theorem test_ldVxMem : stepsTo 0xF465 State.reset
    (fun t => [0, 1, 2, 3, 4, 5].map t.reg == [0xF0, 0x90, 0x90, 0x90, 0xF0, 0x00]) = true ∧
    raises 0xFF65 (State.reset.setI 0x0FF1) .memoryAccessViolation = true := by decide

/-- T-DRW-1. -/
theorem test_cls : stepsTo 0x00E0 { State.reset with disp := setPixel State.reset.disp 3 3 true }
    (fun t => !pixel t.disp 3 3 && t.pc == 0x0202) = true := by decide

/-- T-DRW-6 with one row: bits 7 to 4 of F0 at columns 63, 0, 1, 2 of row 31. -/
theorem test_drw_wraps : stepsTo 0xD341 ((regs2 3 0xFF 4 0xFF).setI 0x004B)
    (fun t => [63, 0, 1, 2, 3].map (pixel t.disp 31) == [true, true, true, true, false] && t.reg 15 == 0x00) = true := by
  decide

/-- T-DRW-7 and T-DRW-8: the coordinates are read before VF is written; n = 0 reads nothing. -/
theorem test_drw_vf : stepsTo 0xDFF1 (State.reset.setReg 15 0x02) (fun t => pixel t.disp 2 2 && t.reg 15 == 0x00) = true ∧
    stepsTo 0xD000 ((State.reset.setReg 15 0x07).setI 0xFFFF) (fun t => t.reg 15 == 0x00 && t.pc == 0x0202) = true := by
  decide

/-- T-KEY-1, T-KEY-5. -/
theorem test_skp : stepsTo 0xE09E ((State.reset.setReg 0 0x05).setKeys 0x0020) (fun t => t.pc == 0x0204) = true ∧
    stepsTo 0xE09E ((State.reset.setReg 0 0x10).setKeys 0xFFFF) (fun t => t.pc == 0x0202) = true := by decide

/-- T-KEY-7, T-KEY-9. -/
theorem test_sknp : stepsTo 0xE0A1 ((State.reset.setReg 0 0x05).setKeys 0x0020) (fun t => t.pc == 0x0202) = true ∧
    stepsTo 0xE0A1 ((State.reset.setReg 0 0x10).setKeys 0xFFFF) (fun t => t.pc == 0x0204) = true := by decide

/-- T-KEY-11, T-KEY-13. -/
theorem test_ldVxK : stepsTo 0xF70A (State.reset.setReg 7 0xEE) (fun t => t.reg 7 == 0xEE && t.pc == 0x0200) = true ∧
    stepsTo 0xF70A ((State.reset.setReg 7 0xEE).setKeys 0x8000) (fun t => t.reg 7 == 0x0F && t.pc == 0x0202) = true := by
  decide

/-- T-KEY-15: with keys 3 and 9 down, the stored key is one of the two. -/
theorem test_keyPick_two_keys : keyPick 0x0208 = 3 ∨ keyPick 0x0208 = 9 := by
  have two : ∀ k : RegIdx, (0x0208#16).getLsbD k.val = true → k = 3 ∨ k = 9 := by decide
  exact two _ (keyPick_pressed _ (by decide))

/-- T-TMR-1, T-TMR-2, T-TMR-3. -/
theorem test_timers : stepsTo 0xF407 (State.reset.setDt 0x2A) (fun t => t.reg 4 == 0x2A && t.dt == 0x2A) = true ∧
    stepsTo 0xF315 (State.reset.setReg 3 0x03) (fun t => t.dt == 0x03 && t.st == 0x00) = true ∧
    stepsTo 0xF318 (State.reset.setReg 3 0x03) (fun t => t.st == 0x03 && t.sound && t.dt == 0x00) = true := by decide

/-- "Unmatched opcodes": 5AB1. -/
theorem test_unmatched : stepsTo 0x5AB1 State.reset (fun t => decide (t = (State.reset.placeOpcode 0x5AB1).advance)) = true := by
  decide

/-- T-FETCH-1, step 2, and T-FAULT-2: the fetch bound, on both sides. -/
theorem test_fetch_bound : Sys2Proof.Machine.State.fetch (State.reset.setPc 0x0FFF) = none ∧
    (State.reset.setPc 0x0FFE).fetch = some 0x0000 := by decide

/-- T-TMR-4, T-TMR-7. -/
theorem test_tick : State.reset.tick = State.reset ∧
    ((State.reset.setDt 0x05).setSt 0x01).tick = State.reset.setDt 0x04 ∧ (State.reset.setSt 0x01).tick.sound = false := by
  decide

/-- T-HOST-5: the second LOAD writes two bytes only. -/
theorem test_load_twice : ((issueAll defaultParams [.load [0x11, 0x22, 0x33, 0x44], .load [0xAA, 0xBB]] State.reset).1.bytesAt 0x200 4) =
    [0xAA, 0xBB, 0x33, 0x44] := by decide

/-- R178. -/
theorem test_status_codes :
    [Status.ok, .memoryAccessViolation, .stackOverflow, .stackUnderflow, .romTooLarge].map Status.code = [0, 1, 2, 3, 4] := by
  decide

/-! ## Witnesses: states and operands that meet the hypotheses of an obligation -/

theorem witness_FetchIsBigEndian : State.reset.pc.toNat ≤ 0x0FFE ∧ (State.reset.setPc 0x0FFE).pc.toNat ≤ 0x0FFE := by decide

theorem witness_DecoderFollowsTheOpcodeMap :
    (⟨"LD_Vx___I", 0xF0FF, 0xF065⟩ : OpcodeRow) ∈ opcodeRows ∧ OpcodeRow.selects ⟨"LD_Vx___I", 0xF0FF, 0xF065⟩ 0xF265 = true ∧
    decodeWord 0xF265 = some (.ldVxMem 2) := by decide

theorem witness_NoOpcodeMatchesTwoRows :
    (⟨"CLS", 0xFFFF, 0x00E0⟩ : OpcodeRow) ∈ opcodeRows ∧ OpcodeRow.selects ⟨"CLS", 0xFFFF, 0x00E0⟩ 0x00E0 = true := by decide

theorem witness_DecodeOfEncodeIsTheInstruction : (Instr.drw 15 0 15).WellFormed ∧ (Instr.jp 0xFFF).WellFormed := by decide

theorem witness_EncodeOfDecodeIsTheOpcode : decodeWord 0xDFFF = some (.drw 15 15 15) ∧ decodeWord 0x8AB6 = some (.shr 10 11) := by
  decide

/-- The last address an opcode can be fetched from, with an opcode there. -/
def lastFetch (w : Word) : State := (State.reset.setPc 0x0FFE).placeOpcode w

theorem witness_StepRunsTheDecodedInstruction :
    (lastFetch 0x6005).pc.toNat ≤ 0x0FFE ∧
    decode [(lastFetch 0x6005).byteAt (lastFetch 0x6005).pc.toNat, (lastFetch 0x6005).byteAt ((lastFetch 0x6005).pc.toNat + 1)] =
      .instr (.ldByte 0 5) [] ∧ (∀ x kk, Instr.ldByte 0 5 ≠ .rnd x kk) := by decide

/-- The two command clauses: an instruction that is not Cxkk, and Cxkk with the byte the host supplies. -/
theorem witness_StepRunsTheDecodedInstruction_command :
    (∃ t, exec (.ldByte 0 5) (lastFetch 0x6005) = .next t) ∧
    ∃ t, exec (.rnd 3 0x0F) { lastFetch 0xC30F with rndIn := [0xAB] } = .next t ∧ t.reg 3 = 0x0B :=
  ⟨⟨_, rfl⟩, _, rfl, by decide⟩

theorem witness_UnmatchedOpcodeOnlyAdvances :
    (lastFetch 0x5AB1).fetch = some 0x5AB1 ∧ ∀ r ∈ opcodeRows, r.selects 0x5AB1 = false := by decide

theorem witness_FailingCommandChangesNothing_step :
    (issue defaultParams (.step 0) (State.reset.setPc 0x0FFF)).2 = .status .memoryAccessViolation ∧ Status.memoryAccessViolation ≠ .ok := by
  decide

theorem witness_FailingCommandChangesNothing_load :
    (issue defaultParams (.load (List.replicate 3585 0xAA)) State.reset).2 = .status .romTooLarge ∧ Status.romTooLarge ≠ .ok := by
  have h : (List.replicate 3585 (0xAA : Byte)).length > Config.romMax := by rw [List.length_replicate]; decide
  refine ⟨?_, by decide⟩
  rw [issue, State.load, if_pos h]

theorem witness_FaultsDoNotDependOnInputs : step (State.reset.placeOpcode 0x00EE) = .fault .stackUnderflow := rfl

/-- A full stack, with a call at pc. -/
def fullStack : State := { State.reset with sp := 16 }.placeOpcode 0x2200

theorem witness_StackFaultsExactly :
    exec (.call 0x200) fullStack = .fault .stackOverflow ∧ fullStack.fetch = some 0x2200 ∧
    decodeWord 0x2200 = some (.call 0x200) ∧
    exec .ret (State.reset.placeOpcode 0x00EE) = .fault .stackUnderflow ∧
    (State.reset.placeOpcode 0x00EE).fetch = some 0x00EE ∧ decodeWord 0x00EE = some .ret :=
  ⟨rfl, by decide, by decide, rfl, by decide, by decide⟩

/-- The first faulting value of I for each instruction, and the first faulting pc. -/
theorem witness_MemoryFaultsExactly :
    exec (.drw 0 0 1) (State.reset.setI 0x1000) = .fault .memoryAccessViolation ∧
    exec (.drw 0 0 15) (State.reset.setI 0x0FF2) = .fault .memoryAccessViolation ∧
    exec (.ldB 0) (State.reset.setI 0x0FFE) = .fault .memoryAccessViolation ∧
    exec (.ldMemVx 15) (State.reset.setI 0x0FF1) = .fault .memoryAccessViolation ∧
    exec (.ldVxMem 0) (State.reset.setI 0x1000) = .fault .memoryAccessViolation ∧
    step (State.reset.setPc 0x0FFF) = .fault .memoryAccessViolation := ⟨rfl, rfl, rfl, rfl, rfl, rfl⟩

/-- The last value of I that does not fault, and no memory access for n = 0. -/
theorem witness_MemoryFaultsExactly_none :
    (∃ t, exec (.drw 0 0 0) (State.reset.setI 0xFFFF) = .next t) ∧ (∃ t, exec (.drw 0 0 15) (State.reset.setI 0x0FF1) = .next t) ∧
    (∃ t, exec (.ldB 0) (State.reset.setI 0x0FFD) = .next t) ∧ (∃ t, exec (.ldMemVx 15) (State.reset.setI 0x0FF0) = .next t) ∧
    (∃ t, exec (.ldVxMem 0) (State.reset.setI 0x0FFF) = .next t) :=
  ⟨⟨_, rfl⟩, ⟨_, rfl⟩, ⟨_, rfl⟩, ⟨_, rfl⟩, ⟨_, rfl⟩⟩

theorem witness_ReturnPopsTheAddress :
    0 < ({ State.reset with sp := 1 } : State).sp.val ∧ 0 < fullStack.sp.val ∧ State.reset.sp.val = 0 := by decide

theorem witness_JumpSetsPc : (0x200#12).toNat = State.reset.pc.toNat ∧ (0xFFF#12).toNat = 0xFFF := by decide

theorem witness_CallPushesAndJumps :
    State.reset.sp.val < 16 ∧ ({ State.reset with sp := 15 } : State).sp.val < 16 ∧ fullStack.sp.val = 16 := by decide

theorem witness_ReturnComesBackAfterTheCall :
    ∃ t u : State, exec (.call 0x300) State.reset = .next t ∧ u.sp = t.sp ∧ u.stack = t.stack := ⟨_, _, rfl, rfl, rfl⟩

theorem witness_RegisterSkipsAdvanceByFourOrTwo :
    (fieldOp 0x5AB1 = 5#4 ∧ fieldN 0x5AB1 ≠ 0#4) ∧ (fieldOp 0x9ABF = 9#4 ∧ fieldN 0x9ABF ≠ 0#4) := by decide

theorem witness_JumpsAndSkipsChangeOnlyPc :
    (∃ t, exec (.jp 0x300) State.reset = .next t) ∧ (∃ t, exec (.jpV0 0x300) State.reset = .next t) ∧
    (∃ t, exec (.seByte 0 0) State.reset = .next t) ∧ (∃ t, exec (.sneByte 0 0) State.reset = .next t) ∧
    (∃ t, exec (.seReg 0 1) State.reset = .next t) ∧ (∃ t, exec (.sneReg 0 1) State.reset = .next t) ∧
    (∃ t, exec (.skp 0) State.reset = .next t) ∧ ∃ t, exec (.sknp 0) State.reset = .next t :=
  ⟨⟨_, rfl⟩, ⟨_, rfl⟩, ⟨_, rfl⟩, ⟨_, rfl⟩, ⟨_, rfl⟩, ⟨_, rfl⟩, ⟨_, rfl⟩, ⟨_, rfl⟩⟩

theorem witness_CallAndReturnChangeOnlyPcAndStack :
    (∃ t, exec .ret { State.reset with sp := 1 } = .next t) ∧ ∃ t, exec (.call 0x300) { State.reset with sp := 15 } = .next t :=
  ⟨⟨_, rfl⟩, ⟨_, rfl⟩⟩

/-- Operands outside VF, and distinct, for the clauses that say what VF and Vy become: LoadsAndAddImmediateWriteVx,
LogicIsBitwiseAndLeavesVF, AddSetsSumAndCarry, SubtractionsSetDifferenceAndStrictFlag, ShiftsSetResultAndShiftedOutBit,
TimerInstructionsCopyBytes. -/
theorem witness_operands_outside_VF : (0 : RegIdx) ≠ regF ∧ (14 : RegIdx) ≠ regF ∧ (14 : RegIdx) ≠ 0 := by decide

theorem witness_RandomIsTheInputByteMasked :
    ({ State.reset with rndIn := [0xAB] } : State).rndIn = 0xAB :: [] ∧ (State.reset.placeOpcode 0xC30F).fetch = some 0xC30F ∧
    decodeWord 0xC30F = some (.rnd 3 0x0F) := by decide

theorem witness_OnlyRandomUsesTheInputByte :
    ∀ w x kk, (State.reset.placeOpcode 0x6005).fetch = some w → decodeWord w ≠ some (.rnd x kk) := by
  intro w x kk h
  rw [show (State.reset.placeOpcode 0x6005).fetch = some 0x6005#16 from by decide] at h
  cases h
  rw [show decodeWord 0x6005#16 = some (.ldByte 0 5) from by decide]
  simp

theorem witness_RegisterWritersChangeOnlyVx :
    (∃ t, exec (.ldByte 1 5) State.reset = .next t) ∧ (∃ t, exec (.addByte 1 5) State.reset = .next t) ∧
    (∃ t, exec (.rnd 1 5) State.reset = .next t) ∧ (∃ t, exec (.ldReg 15 5) State.reset = .next t) ∧
    (∃ t, exec (.orReg 1 5) State.reset = .next t) ∧ (∃ t, exec (.andReg 1 5) State.reset = .next t) ∧
    (∃ t, exec (.xorReg 1 1) State.reset = .next t) ∧ (∃ t, exec (.ldVxDt 1) State.reset = .next t) ∧
    ∃ t, exec (.ldVxK 1) State.reset = .next t :=
  ⟨⟨_, rfl⟩, ⟨_, rfl⟩, ⟨_, rfl⟩, ⟨_, rfl⟩, ⟨_, rfl⟩, ⟨_, rfl⟩, ⟨_, rfl⟩, ⟨_, rfl⟩, ⟨_, rfl⟩⟩

theorem witness_FlagWritersChangeOnlyVxAndVF :
    (∃ t, exec (.addReg 1 2) State.reset = .next t) ∧ (∃ t, exec (.sub 15 2) State.reset = .next t) ∧
    (∃ t, exec (.subn 1 15) State.reset = .next t) ∧ (∃ t, exec (.shr 1 2) State.reset = .next t) ∧
    ∃ t, exec (.shl 1 2) State.reset = .next t :=
  ⟨⟨_, rfl⟩, ⟨_, rfl⟩, ⟨_, rfl⟩, ⟨_, rfl⟩, ⟨_, rfl⟩⟩

theorem witness_IndexAndTimerWritersChangeOnlyTheirRegister :
    (∃ t, exec (.ldI 0xFFF) State.reset = .next t) ∧ (∃ t, exec (.addI 1) State.reset = .next t) ∧
    (∃ t, exec (.ldF 1) State.reset = .next t) ∧ (∃ t, exec (.ldDtVx 1) State.reset = .next t) ∧
    ∃ t, exec (.ldStVx 1) State.reset = .next t := ⟨⟨_, rfl⟩, ⟨_, rfl⟩, ⟨_, rfl⟩, ⟨_, rfl⟩, ⟨_, rfl⟩⟩

/-- Each of the four clauses at its boundary. -/
theorem witness_StoresWriteDigitsAndRegisters :
    (State.reset.setI 0x0FFD).mem.wf ∧ (State.reset.setI 0x0FFD).i.toNat + 2 ≤ 0x0FFF ∧
    0x0FFF < (State.reset.setI 0x0FFE).i.toNat + 2 ∧ (State.reset.setI 0x0FF0).i.toNat + (15 : RegIdx).val ≤ 0x0FFF ∧
    0x0FFF < (State.reset.setI 0x0FF1).i.toNat + (15 : RegIdx).val ∧ (0 : RegIdx) ≤ 15 :=
  ⟨Memory.nil_wf, by decide, by decide, by decide, by decide, by decide⟩

theorem witness_LoadReadsRegisterBlock :
    (State.reset.setI 0x0FF0).i.toNat + (15 : RegIdx).val ≤ 0x0FFF ∧
    0x0FFF < (State.reset.setI 0x0FF1).i.toNat + (15 : RegIdx).val ∧ (15 : RegIdx) ≤ 15 := by decide

theorem witness_MemoryInstructionsChangeOnlyTheirTargets :
    State.reset.mem.wf ∧ (∃ t, exec (.ldB 0) State.reset = .next t) ∧ (∃ t, exec (.ldMemVx 15) State.reset = .next t) ∧
    ∃ t, exec (.ldVxMem 15) State.reset = .next t := ⟨Memory.nil_wf, ⟨_, rfl⟩, ⟨_, rfl⟩, ⟨_, rfl⟩⟩

/-- The store of P6: one register, over the second byte of the next opcode alone; then a store over both bytes, a store of
digits of which the last falls on the first byte, and a store that touches neither. -/
theorem witness_StoreIsSeenByTheNextFetch :
    (∃ t, exec (.ldMemVx 0) (State.reset.setI 0x0203) = .next t ∧ t.pc.toNat ≤ 0x0FFE ∧ 0x0203 = t.pc.toNat + 1) ∧
    (∃ t, exec (.ldMemVx 1) (State.reset.setI 0x0202) = .next t ∧ t.pc.toNat ≤ 0x0FFE ∧ 0x0202 = t.pc.toNat) ∧
    (∃ t, exec (.ldB 0) (State.reset.setI 0x0200) = .next t ∧ t.pc.toNat ≤ 0x0FFE ∧ 0x0200 + 2 = t.pc.toNat) ∧
    (∃ t, exec (.ldB 0) (State.reset.setI 0x0300) = .next t ∧ t.pc.toNat + 1 < 0x0300) ∧ State.reset.mem.wf :=
  ⟨⟨_, rfl, by decide, by decide⟩, ⟨_, rfl, by decide, by decide⟩, ⟨_, rfl, by decide, by decide⟩, ⟨_, rfl, by decide⟩,
    Memory.nil_wf⟩

theorem witness_ClearBlanksTheDisplay : ∀ r c, pixel State.reset.disp r c = false := by decide

/-- Both disjuncts: no row, and fifteen rows that end at the last address. -/
theorem witness_DrawXorsTheSpriteAndReportsCollision :
    (Instr.drw 0 0 0).WellFormed ∧ (Instr.drw 0 0 15).WellFormed ∧ (State.reset.setI 0x0FF1).i.toNat + 15 - 1 ≤ 0x0FFF := by decide

theorem witness_DrawingTwiceRestoresTheDisplay :
    (Instr.drw 1 2 5).WellFormed ∧ (1 : RegIdx) ≠ regF ∧ (2 : RegIdx) ≠ regF ∧
    ∃ t u, exec (.drw 1 2 5) State.reset = .next t ∧ exec (.drw 1 2 5) t = .next u :=
  ⟨by decide, by decide, by decide, _, _, rfl, rfl⟩

theorem witness_DisplayInstructionsChangeOnlyDisplayAndVF :
    (∃ t, exec .cls State.reset = .next t) ∧ ∃ t, exec (.drw 15 15 15) State.reset = .next t := ⟨⟨_, rfl⟩, ⟨_, rfl⟩⟩

/-- No key, several keys, and the one key 15. -/
theorem witness_KeyWaitStallsOrStoresAPressedKey :
    State.reset.keys = 0#16 ∧ (State.reset.setKeys 0x0208).keys ≠ 0#16 ∧ (State.reset.setKeys 0x8000).keys ≠ 0#16 ∧
    (State.reset.setKeys 0x8000).keys = 1#16 <<< (15 : RegIdx).val := by decide

theorem witness_DelayTimerWritersAndReaders :
    (∀ x, Instr.ldStVx 0 ≠ .ldVxDt x) ∧ (∀ x, Instr.ldStVx 0 ≠ .ldDtVx x) := by decide

theorem witness_SoundTimerWritersAndOutput : ∀ x, Instr.ldDtVx 0 ≠ .ldStVx x := by decide

/-- One instruction for each piece of state that may change. -/
theorem witness_OnlyOwnersWriteEachPieceOfState :
    (∃ t, exec (.ldI 5) State.reset = .next t ∧ t.i ≠ State.reset.i) ∧
    (∃ t, exec (.call 5) State.reset = .next t ∧ t.sp ≠ State.reset.sp) ∧
    (∃ t, exec (.ldDtVx 1) (State.reset.setReg 1 3) = .next t ∧ t.dt ≠ State.reset.dt) ∧
    (∃ t, exec (.ldStVx 1) (State.reset.setReg 1 3) = .next t ∧ t.st ≠ State.reset.st) ∧
    (∃ t, exec (.ldMemVx 0) State.reset = .next t ∧ t.mem ≠ State.reset.mem) ∧
    (∃ t, exec (.drw 0 0 1) State.reset = .next t ∧ pixel t.disp 0 0 ≠ pixel State.reset.disp 0 0) ∧
    ∃ t, exec (.rnd 1 5) State.reset = .next t ∧ t.rndIndex ≠ State.reset.rndIndex :=
  ⟨⟨_, rfl, by decide⟩, ⟨_, rfl, by decide⟩, ⟨_, rfl, by decide⟩, ⟨_, rfl, by decide⟩, ⟨_, rfl, by decide⟩,
    ⟨_, rfl, by decide⟩, ⟨_, rfl, by decide⟩⟩

theorem witness_OnlyFlagWritersOrDestinationsTouchVF :
    ∃ t, exec (.shr 1 2) (State.reset.setReg 1 0x01) = .next t ∧ t.reg regF ≠ (State.reset.setReg 1 0x01).reg regF :=
  ⟨_, rfl, by decide⟩

theorem witness_EveryOtherInstructionAdvancesByTwo :
    (∃ t, exec .cls State.reset = .next t) ∧ Instr.cls ≠ .ret ∧
    (∃ t, exec (.ldVxK 0) (State.reset.setKeys 0x8000) = .next t) ∧ (State.reset.setKeys 0x8000).keys ≠ 0#16 :=
  ⟨⟨_, rfl⟩, by decide, ⟨_, rfl⟩, by decide⟩

/-- The shortest program, and the longest. -/
theorem witness_ResetEntersTheLoadedProgram :
    (0x60 :: 0x05 :: ([] : List Byte)).length ≤ 3584 ∧ (0x60 :: 0x05 :: List.replicate 3582 (0 : Byte)).length ≤ 3584 := by
  rw [List.length_cons, List.length_cons, List.length_cons, List.length_cons, List.length_replicate]; decide

theorem witness_LoadCopiesTheProgramOnly :
    State.reset.mem.wf ∧ (List.replicate 3584 (0xAA : Byte)).length ≤ 3584 ∧ 3584 < (List.replicate 3585 (0xAA : Byte)).length :=
  ⟨Memory.nil_wf, by rw [List.length_replicate], by rw [List.length_replicate]; decide⟩

/-- A state that meets the invariant, and its step, which reaches the largest pc the invariant allows. -/
theorem witness_StepKeepsTheInvariant :
    ((State.reset.setReg 0 0xFF).placeOpcode 0xBFFF).Inv ∧
    ∃ t, step ((State.reset.setReg 0 0xFF).placeOpcode 0xBFFF) = .next t ∧ t.pc.toNat = pcMax :=
  ⟨⟨by decide, by decide, by decide⟩, _, rfl, by decide⟩

/-- The premise of the command clauses: a state that meets the invariant and is not the reset state. -/
theorem witness_EveryHostRunKeepsTheInvariant : ((State.reset.setPc 0x10FE).placeOpcode 0x60FF).Inv :=
  ⟨by decide, by decide, by decide⟩

/-- Boundary addresses of the two memory clauses. -/
theorem witness_ResetValues : (0 : Nat) < 80 ∧ 79 < 80 ∧ (0 : Nat) < 4016 ∧ 80 + 4015 = Config.addrMax := by decide

theorem witness_ParkedProgramStaysParked : (State.reset.placeOpcode 0x1200).parked :=
  ⟨0x1200, 0x200, by decide, by decide, by decide⟩

/-- The host's two questions: the word stored by withFetchWord is the one the next step fetches, also where pc itself
cannot be fetched from. -/
theorem test_withFetchWord : (State.reset.withFetchWord 16 0xD125).fetch = some 0xD125 ∧
    ((State.reset.setPc 0x10FE).withFetchWord 16 0xD125).fetch = some 0xD125 := by decide

end Sys2Proof.Tests
end

section
/-! The proofs of the state family (10_state.md): the two timers, which only their own instructions and TICK touch, and
the entry into the loaded program. -/

namespace Sys2Proof.Machine

/-! ## Updates of the timers -/

/-- Both timers updated, everything else as it is: the form that `State.setDt` and `State.setSt` share. -/
def State.mapTimers (f g : Byte → Byte) (s : State) : State := { s with dt := f s.dt, st := g s.st }

@[simp] theorem State.mapTimers_i (s : State) (f g : Byte → Byte) : (s.mapTimers f g).i = s.i := rfl
@[simp] theorem State.mapTimers_keys (s : State) (f g : Byte → Byte) : (s.mapTimers f g).keys = s.keys := rfl

/-- The range of an access at I does not depend on the timers. -/
theorem State.withRangeAtI_mapTimers (s t : State) (len : Nat) (f g : Byte → Byte) :
    (s.mapTimers f g).withRangeAtI len (t.mapTimers f g) = mapNext (State.mapTimers f g) (s.withRangeAtI len t) := by
  rw [withRangeAtI, withRangeAtI, mapTimers_i]
  split <;> rfl

theorem execRet_mapTimers (s : State) (f g : Byte → Byte) :
    execRet (s.mapTimers f g) = mapNext (State.mapTimers f g) (execRet s) := by
  simp only [execRet, State.pop]
  by_cases h : 0 < s.sp.val <;> simp [State.mapTimers, h] <;> rfl

theorem execCall_mapTimers (nnn : Addr12) (s : State) (f g : Byte → Byte) :
    execCall nnn (s.mapTimers f g) = mapNext (State.mapTimers f g) (execCall nnn s) := by
  simp only [execCall, State.push]
  by_cases h : s.sp.val < Config.stackDepth <;> simp [State.mapTimers, h] <;> rfl

theorem execLdVxK_mapTimers (x : RegIdx) (s : State) (f g : Byte → Byte) :
    execLdVxK x (s.mapTimers f g) = mapNext (State.mapTimers f g) (execLdVxK x s) := by
  rw [execLdVxK, execLdVxK, State.mapTimers_keys]
  split <;> rfl

theorem execRnd_mapTimers (x : RegIdx) (kk : Byte) (s : State) (f g : Byte → Byte) :
    execRnd x kk (s.mapTimers f g) = mapNext (State.mapTimers f g) (execRnd x kk s) := by
  simp only [execRnd, State.dropRandom, State.mapTimers]
  split <;> rfl

/-- Every instruction but Fx07, Fx15 and Fx18 neither reads a timer nor writes one: it commutes with any update of them. -/
theorem exec_mapTimers (i : Instr) (hread : ∀ x, i ≠ .ldVxDt x) (hdt : ∀ x, i ≠ .ldDtVx x)
    (hst : ∀ x, i ≠ .ldStVx x) (s : State) (f g : Byte → Byte) :
    exec i (s.mapTimers f g) = mapNext (State.mapTimers f g) (exec i s) := by
  cases i with
  | ldVxDt x => exact absurd rfl (hread x)
  | ldDtVx x => exact absurd rfl (hdt x)
  | ldStVx x => exact absurd rfl (hst x)
  | ret => exact execRet_mapTimers s f g
  | call nnn => exact execCall_mapTimers nnn s f g
  | ldVxK x => exact execLdVxK_mapTimers x s f g
  | rnd x kk => exact execRnd_mapTimers x kk s f g
  | drw x y n =>
    exact s.withRangeAtI_mapTimers ((s.setDisp (s.drawn x y n).1).setReg regF (flagByte (s.drawn x y n).2)).advance n f g
  | ldB x => exact s.withRangeAtI_mapTimers (s.store s.i.toNat (decimalDigits (s.reg x))).advance 3 f g
  | ldMemVx x => exact s.withRangeAtI_mapTimers (s.store s.i.toNat (s.regsUpTo x)).advance (x.val + 1) f g
  | ldVxMem x =>
    exact s.withRangeAtI_mapTimers
      ({ s with v := fillRegs 0 s.v (s.bytesAt s.i.toNat (x.val + 1)) } : State).advance (x.val + 1) f g
  | _ => rfl

/-- Every instruction but Fx07 and Fx15 answers the same whatever DT is, and leaves DT as it is (10_state.md R31). -/
theorem exec_setDt (i : Instr) (hread : ∀ x, i ≠ .ldVxDt x) (hwrite : ∀ x, i ≠ .ldDtVx x) (s : State) (b : Byte) :
    exec i (s.setDt b) = mapNext (·.setDt b) (exec i s) := by
  by_cases hst : ∃ x, i = .ldStVx x
  · obtain ⟨x, rfl⟩ := hst
    rfl
  · exact exec_mapTimers i hread hwrite (not_exists.mp hst) s (fun _ => b) id

/-- Every instruction but Fx18 answers the same whatever ST is, and leaves ST as it is (R32). -/
theorem exec_setSt (i : Instr) (hwrite : ∀ x, i ≠ .ldStVx x) (s : State) (b : Byte) :
    exec i (s.setSt b) = mapNext (·.setSt b) (exec i s) := by
  by_cases hdt : ∃ x, i = .ldVxDt x ∨ i = .ldDtVx x
  · obtain ⟨x, rfl | rfl⟩ := hdt <;> rfl
  · push Not at hdt
    exact exec_mapTimers i (fun x => (hdt x).1) (fun x => (hdt x).2) hwrite s id (fun _ => b)

/-! ## TICK -/

@[simp] theorem State.tick_dt (s : State) : s.tick.dt = tickTimer s.dt := rfl
@[simp] theorem State.tick_st (s : State) : s.tick.st = tickTimer s.st := rfl

theorem issue_tick (p : Config.Params) (s : State) : issue p .tick s = (s.tick, .none) := rfl

/-- A timer at a TICK, as R31 words it: decremented if it is above 0, else left. -/
theorem tickTimer_toNat_eq_ite (b : Byte) :
    (tickTimer b).toNat = if b.toNat > 0 then b.toNat - 1 else b.toNat := by
  rw [tickTimer_toNat]
  split <;> omega

/-! ## The fetch of stored bytes -/

/-- Bytes stored at pc are the opcode the next fetch reads, the first the high byte (20_memory.md R51). -/
theorem State.fetch_store_pc (s : State) (hm : s.mem.wf) (hpc : s.pc.toNat ≤ 0x0FFE) (first second : Byte)
    (rest : List Byte) :
    (s.store s.pc.toNat (first :: second :: rest)).fetch = some (opcodeOfBytes first second) := by
  rcases (s.store s.pc.toNat (first :: second :: rest)).fetch_cases with ⟨h, -⟩ | ⟨-, hfetch⟩
  · exact absurd hpc (Nat.not_le.mpr h)
  · rw [hfetch, State.store_pc, State.byteAt_store s hm, State.byteAt_store s hm]
    simp

/-! ## The obligations -/

/-- Settles O47: Fx07, Fx15 and TICK by their meanings, every other instruction by `exec_setDt`. -/
theorem delayTimerWritersAndReaders : Obligations.DelayTimerWritersAndReaders := by
  refine ⟨rfl, fun x s => ⟨_, rfl, rfl⟩, fun x s => ?_, fun p s => ?_,
    fun i s b hread hwrite => exec_setDt i hread hwrite s b⟩
  · exact ⟨(s.setReg x s.dt).advance, rfl, by simp⟩
  · rw [issue_tick, State.tick_dt, tickTimer_toNat_eq_ite]

/-- Settles O48: Fx18, TICK and the two reads by their meanings, every other instruction by `exec_setSt`. -/
theorem soundTimerWritersAndOutput : Obligations.SoundTimerWritersAndOutput := by
  refine ⟨rfl, fun x s => ⟨_, rfl, rfl⟩, fun p s b => ⟨?_, rfl, rfl⟩, fun i s b hwrite => exec_setSt i hwrite s b,
    fun p s => rfl, fun p s b => rfl⟩
  rw [issue_tick, State.tick_st, tickTimer_toNat_eq_ite]

/-- Settles O53: LOAD stores the program at 0x200, which is the pc of the reset state. -/
theorem resetEntersTheLoadedProgram : Obligations.ResetEntersTheLoadedProgram := by
  refine fun p => ⟨rfl, fun first second rest hlen => ⟨_, issue_load p _ _ hlen, rfl, ?_⟩⟩
  exact (State.resetWith p).fetch_store_pc (State.resetWith_mem_wf p) (by rw [State.resetWith_pc]; decide)
    first second rest

end Sys2Proof.Machine
end

section
/-! The proof of the memory family (20_memory.md): the fields of the opcode two bytes make, each byte on its own side. -/

namespace Sys2Proof

/-! ## The fields of two bytes (30_encoding.md R71, R72) -/

theorem toNat_fieldOp_opcodeOfBytes (a b : Byte) : (fieldOp (opcodeOfBytes a b)).toNat = a.toNat / 16 := by
  rw [toNat_fieldOp, toNat_opcodeOfBytes]
  omega

theorem val_fieldX_opcodeOfBytes (a b : Byte) : (fieldX (opcodeOfBytes a b)).val = a.toNat % 16 := by
  rw [val_fieldX, toNat_opcodeOfBytes]
  omega

theorem val_fieldY_opcodeOfBytes (a b : Byte) : (fieldY (opcodeOfBytes a b)).val = b.toNat / 16 := by
  rw [val_fieldY, toNat_opcodeOfBytes]
  omega

theorem toNat_fieldN_opcodeOfBytes (a b : Byte) : (fieldN (opcodeOfBytes a b)).toNat = b.toNat % 16 := by
  rw [toNat_fieldN, toNat_opcodeOfBytes]
  omega

@[simp] theorem fieldKk_opcodeOfBytes (a b : Byte) : fieldKk (opcodeOfBytes a b) = b := by
  apply BitVec.eq_of_toNat_eq
  rw [toNat_fieldKk, toNat_opcodeOfBytes]
  omega

end Sys2Proof

namespace Sys2Proof.Machine

/-- Where pc can be fetched from, the fetch answers the opcode of the two bytes there (40_step_cycle.md R92). -/
theorem State.fetch_of_le (s : State) (h : s.pc.toNat ≤ 0x0FFE) :
    s.fetch = some (opcodeOfBytes (s.byteAt s.pc.toNat) (s.byteAt (s.pc.toNat + 1))) := by
  rcases s.fetch_cases with ⟨hgt, -⟩ | ⟨-, hfetch⟩
  · exact absurd h (Nat.not_le.mpr hgt)
  · exact hfetch

/-- Settles O2: the opcode fetched is that of the two bytes at pc, and each byte is its two nibbles side by side. -/
theorem fetchIsBigEndian : Obligations.FetchIsBigEndian := by
  intro s hpc
  refine ⟨_, s.fetch_of_le hpc, toNat_opcodeOfBytes _ _, ?_, ?_, fieldKk_opcodeOfBytes _ _⟩
  · rw [toNat_fieldOp_opcodeOfBytes, val_fieldX_opcodeOfBytes, Nat.div_add_mod']
  · rw [val_fieldY_opcodeOfBytes, toNat_fieldN_opcodeOfBytes, Nat.div_add_mod']

end Sys2Proof.Machine
end

section
/-! The proofs of the encoding family (30_encoding.md): what the overlapping fields of an opcode are made of, the
encoder and the decoder as inverses of each other, and the decoder against the rows of the opcode map. -/

namespace Sys2Proof

/-! ## The overlapping fields (R72) -/

theorem toNat_fieldNnn_eq_nibbles (w : Word) :
    (fieldNnn w).toNat = (fieldX w).val * 256 + (fieldY w).val * 16 + (fieldN w).toNat := by
  rw [toNat_fieldNnn, val_fieldX, val_fieldY, toNat_fieldN]
  omega

theorem toNat_fieldKk_eq_nibbles (w : Word) : (fieldKk w).toNat = (fieldY w).val * 16 + (fieldN w).toNat := by
  rw [toNat_fieldKk, val_fieldY, toNat_fieldN]
  omega

/-- Settles O1: each byte is its two nibbles, and the wide fields are made of the nibbles. -/
theorem twoBytesGiveTheSixFields : Obligations.TwoBytesGiveTheSixFields := fun first second =>
  ⟨toNat_fieldOp_opcodeOfBytes first second, val_fieldX_opcodeOfBytes first second,
    val_fieldY_opcodeOfBytes first second, toNat_fieldN_opcodeOfBytes first second,
    toNat_fieldNnn_eq_nibbles _, toNat_fieldKk_eq_nibbles _⟩

/-! ## A word is assembled from its own fields (R73) -/

theorem wordNnn_of_fieldOp {w : Word} {op : BitVec 4} (hop : fieldOp w = op) : wordNnn op (fieldNnn w) = w := by
  apply BitVec.eq_of_toNat_eq
  rw [← hop, toNat_wordNnn, toNat_fieldOp, toNat_fieldNnn]
  omega

theorem wordXyn_of_fieldOp {w : Word} {op : BitVec 4} (hop : fieldOp w = op) :
    wordXyn op (fieldX w) (fieldY w) (fieldN w) = w := by
  apply BitVec.eq_of_toNat_eq
  rw [← hop, toNat_wordXyn, toNat_fieldOp, val_fieldX, val_fieldY, toNat_fieldN]
  omega

theorem wordXkk_of_fieldOp {w : Word} {op : BitVec 4} (hop : fieldOp w = op) :
    wordXkk op (fieldX w) (fieldKk w) = w := by
  apply BitVec.eq_of_toNat_eq
  rw [← hop, toNat_wordXkk, toNat_fieldOp, val_fieldX, toNat_fieldKk]
  omega

/-! ## The fields a mask keeps (R75)

A word with the value `v` under a mask has the fields of `v` where the mask is all ones, so it is assembled from those
and its own operand fields. -/

theorem fieldOp_and (w m : Word) : fieldOp (w &&& m) = fieldOp w &&& fieldOp m := BitVec.extractLsb'_and

theorem fieldN_and (w m : Word) : fieldN (w &&& m) = fieldN w &&& fieldN m := BitVec.extractLsb'_and

theorem fieldKk_and (w m : Word) : fieldKk (w &&& m) = fieldKk w &&& fieldKk m := BitVec.extractLsb'_and

theorem fieldOp_eq_of_and {w m v : Word} (h : w &&& m = v) (hm : fieldOp m = 0xF#4) : fieldOp w = fieldOp v := by
  rw [← h, fieldOp_and, hm]
  exact BitVec.and_allOnes.symm

theorem fieldN_eq_of_and {w m v : Word} (h : w &&& m = v) (hm : fieldN m = 0xF#4) : fieldN w = fieldN v := by
  rw [← h, fieldN_and, hm]
  exact BitVec.and_allOnes.symm

theorem fieldKk_eq_of_and {w m v : Word} (h : w &&& m = v) (hm : fieldKk m = 0xFF#8) : fieldKk w = fieldKk v := by
  rw [← h, fieldKk_and, hm]
  exact BitVec.and_allOnes.symm

/-- Format NNN. -/
theorem wordNnn_of_and {w v : Word} {op : BitVec 4} (h : w &&& 0xF000#16 = v) (hop : fieldOp v = op) :
    wordNnn op (fieldNnn w) = w :=
  wordNnn_of_fieldOp ((fieldOp_eq_of_and h rfl).trans hop)

/-- Format XKK. -/
theorem wordXkk_of_and {w v : Word} {op : BitVec 4} (h : w &&& 0xF000#16 = v) (hop : fieldOp v = op) :
    wordXkk op (fieldX w) (fieldKk w) = w :=
  wordXkk_of_fieldOp ((fieldOp_eq_of_and h rfl).trans hop)

/-- Format XYN. -/
theorem wordXyn_of_and {w v : Word} {op : BitVec 4} (h : w &&& 0xF000#16 = v) (hop : fieldOp v = op) :
    wordXyn op (fieldX w) (fieldY w) (fieldN w) = w :=
  wordXyn_of_fieldOp ((fieldOp_eq_of_and h rfl).trans hop)

/-- Format XY. -/
theorem wordXy_of_and {w v : Word} {op n : BitVec 4} (h : w &&& 0xF00F#16 = v) (hop : fieldOp v = op)
    (hn : fieldN v = n) : wordXyn op (fieldX w) (fieldY w) n = w := by
  rw [← hn, ← fieldN_eq_of_and h rfl]
  exact wordXyn_of_fieldOp ((fieldOp_eq_of_and h rfl).trans hop)

/-- Format X. -/
theorem wordX_of_and {w v : Word} {op : BitVec 4} {kk : Byte} (h : w &&& 0xF0FF#16 = v) (hop : fieldOp v = op)
    (hkk : fieldKk v = kk) : wordXkk op (fieldX w) kk = w := by
  rw [← hkk, ← fieldKk_eq_of_and h rfl]
  exact wordXkk_of_fieldOp ((fieldOp_eq_of_and h rfl).trans hop)

/-! ## The encoder undoes the decoder -/

theorem encode_of_decodeFamily8 {x y : RegIdx} {n : BitVec 4} {i : Instr} (h : decodeFamily8 x y n = some i) :
    encode i = wordXyn 0x8#4 x y n := by
  unfold decodeFamily8 at h
  split at h <;> cases h <;> rfl

theorem encode_of_decodeFamilyE {x : RegIdx} {kk : Byte} {i : Instr} (h : decodeFamilyE x kk = some i) :
    encode i = wordXkk 0xE#4 x kk := by
  unfold decodeFamilyE at h
  split at h <;> cases h <;> rfl

theorem encode_of_decodeFamilyF {x : RegIdx} {kk : Byte} {i : Instr} (h : decodeFamilyF x kk = some i) :
    encode i = wordXkk 0xF#4 x kk := by
  unfold decodeFamilyF at h
  split at h <;> cases h <;> rfl

theorem encode_drw_of_toNat (x y : RegIdx) (n : BitVec 4) : encode (.drw x y n.toNat) = wordXyn 0xD#4 x y n := by
  rw [encode, BitVec.ofNat_toNat, BitVec.setWidth_eq]

/-- An opcode that decodes is the encoding of the instruction it decodes to. -/
theorem encode_of_decodeWord {w : Word} {i : Instr} (h : decodeWord w = some i) : encode i = w := by
  unfold decodeWord at h
  split at h
  next =>
    split at h
    next hw => cases h; exact hw.symm
    next =>
      split at h
      next hw => cases h; exact hw.symm
      next => cases h
  next hop => cases h; exact wordNnn_of_fieldOp hop
  next hop => cases h; exact wordNnn_of_fieldOp hop
  next hop => cases h; exact wordXkk_of_fieldOp hop
  next hop => cases h; exact wordXkk_of_fieldOp hop
  next hop =>
    split at h
    next hn => cases h; rw [encode, ← hn]; exact wordXyn_of_fieldOp hop
    next => cases h
  next hop => cases h; exact wordXkk_of_fieldOp hop
  next hop => cases h; exact wordXkk_of_fieldOp hop
  next hop => exact (encode_of_decodeFamily8 h).trans (wordXyn_of_fieldOp hop)
  next hop =>
    split at h
    next hn => cases h; rw [encode, ← hn]; exact wordXyn_of_fieldOp hop
    next => cases h
  next hop => cases h; exact wordNnn_of_fieldOp hop
  next hop => cases h; exact wordNnn_of_fieldOp hop
  next hop => cases h; exact wordXkk_of_fieldOp hop
  next hop => cases h; exact (encode_drw_of_toNat _ _ _).trans (wordXyn_of_fieldOp hop)
  next hop => exact (encode_of_decodeFamilyE h).trans (wordXkk_of_fieldOp hop)
  next hop => exact (encode_of_decodeFamilyF h).trans (wordXkk_of_fieldOp hop)
  next => cases h

/-! ## The decoder undoes the encoder -/

/-- The encoding of a well-formed instruction decodes to that instruction. -/
theorem decodeWord_encode (i : Instr) (hi : i.WellFormed) : decodeWord (encode i) = some i := by
  cases i with
  | cls => rfl
  | ret => rfl
  | drw x y n =>
    have hn : n % 16 = n := Nat.mod_eq_of_lt (Nat.lt_succ_of_le hi)
    simp [encode, decodeWord, hn]
  | _ => simp [encode, decodeWord, decodeFamily8, decodeFamilyE, decodeFamilyF]

/-! ## The rows of the opcode map (R76) -/

/-- The word decodes to an instruction of the row. -/
def OpcodeRow.DecodedAt (w : Word) (r : OpcodeRow) : Prop := ∃ i, decodeWord w = some i ∧ i.row = r

theorem OpcodeRow.selects_iff (r : OpcodeRow) (w : Word) : r.selects w = true ↔ w &&& r.mask = r.value := beq_iff_eq

/-- A word that is the encoding of a well-formed instruction decodes to an instruction of that one's row. -/
theorem row_decodedAt_of_encode {w : Word} (i : Instr) (hi : i.WellFormed) (h : encode i = w) : i.row.DecodedAt w :=
  ⟨i, h ▸ decodeWord_encode i hi, rfl⟩

theorem word_eq_of_and_allOnes {w v : Word} (h : w &&& 0xFFFF#16 = v) : v = w :=
  h.symm.trans BitVec.and_allOnes

theorem rows0to7_decodedAt (w : Word) : ∀ r ∈ opcodeRows0to7, w &&& r.mask = r.value → r.DecodedAt w := by
  simp only [opcodeRows0to7, List.forall_mem_cons]
  exact
    ⟨fun h => row_decodedAt_of_encode .cls trivial (word_eq_of_and_allOnes h),
     fun h => row_decodedAt_of_encode .ret trivial (word_eq_of_and_allOnes h),
     fun h => row_decodedAt_of_encode (.jp _) trivial (wordNnn_of_and h rfl),
     fun h => row_decodedAt_of_encode (.call _) trivial (wordNnn_of_and h rfl),
     fun h => row_decodedAt_of_encode (.seByte _ _) trivial (wordXkk_of_and h rfl),
     fun h => row_decodedAt_of_encode (.sneByte _ _) trivial (wordXkk_of_and h rfl),
     fun h => row_decodedAt_of_encode (.seReg _ _) trivial (wordXy_of_and h rfl rfl),
     fun h => row_decodedAt_of_encode (.ldByte _ _) trivial (wordXkk_of_and h rfl),
     fun h => row_decodedAt_of_encode (.addByte _ _) trivial (wordXkk_of_and h rfl),
     List.forall_mem_nil _⟩

theorem rows8_decodedAt (w : Word) : ∀ r ∈ opcodeRows8, w &&& r.mask = r.value → r.DecodedAt w := by
  simp only [opcodeRows8, List.forall_mem_cons]
  exact
    ⟨fun h => row_decodedAt_of_encode (.ldReg _ _) trivial (wordXy_of_and h rfl rfl),
     fun h => row_decodedAt_of_encode (.orReg _ _) trivial (wordXy_of_and h rfl rfl),
     fun h => row_decodedAt_of_encode (.andReg _ _) trivial (wordXy_of_and h rfl rfl),
     fun h => row_decodedAt_of_encode (.xorReg _ _) trivial (wordXy_of_and h rfl rfl),
     fun h => row_decodedAt_of_encode (.addReg _ _) trivial (wordXy_of_and h rfl rfl),
     fun h => row_decodedAt_of_encode (.sub _ _) trivial (wordXy_of_and h rfl rfl),
     fun h => row_decodedAt_of_encode (.shr _ _) trivial (wordXy_of_and h rfl rfl),
     fun h => row_decodedAt_of_encode (.subn _ _) trivial (wordXy_of_and h rfl rfl),
     fun h => row_decodedAt_of_encode (.shl _ _) trivial (wordXy_of_and h rfl rfl),
     List.forall_mem_nil _⟩

theorem rows9toE_decodedAt (w : Word) : ∀ r ∈ opcodeRows9toE, w &&& r.mask = r.value → r.DecodedAt w := by
  have hheight : (fieldN w).toNat ≤ 15 := Nat.le_of_lt_succ (fieldN w).isLt
  simp only [opcodeRows9toE, List.forall_mem_cons]
  exact
    ⟨fun h => row_decodedAt_of_encode (.sneReg _ _) trivial (wordXy_of_and h rfl rfl),
     fun h => row_decodedAt_of_encode (.ldI _) trivial (wordNnn_of_and h rfl),
     fun h => row_decodedAt_of_encode (.jpV0 _) trivial (wordNnn_of_and h rfl),
     fun h => row_decodedAt_of_encode (.rnd _ _) trivial (wordXkk_of_and h rfl),
     fun h => row_decodedAt_of_encode (.drw _ _ _) hheight ((encode_drw_of_toNat _ _ _).trans (wordXyn_of_and h rfl)),
     fun h => row_decodedAt_of_encode (.skp _) trivial (wordX_of_and h rfl rfl),
     fun h => row_decodedAt_of_encode (.sknp _) trivial (wordX_of_and h rfl rfl),
     List.forall_mem_nil _⟩

theorem rowsF_decodedAt (w : Word) : ∀ r ∈ opcodeRowsF, w &&& r.mask = r.value → r.DecodedAt w := by
  simp only [opcodeRowsF, List.forall_mem_cons]
  exact
    ⟨fun h => row_decodedAt_of_encode (.ldVxDt _) trivial (wordX_of_and h rfl rfl),
     fun h => row_decodedAt_of_encode (.ldVxK _) trivial (wordX_of_and h rfl rfl),
     fun h => row_decodedAt_of_encode (.ldDtVx _) trivial (wordX_of_and h rfl rfl),
     fun h => row_decodedAt_of_encode (.ldStVx _) trivial (wordX_of_and h rfl rfl),
     fun h => row_decodedAt_of_encode (.addI _) trivial (wordX_of_and h rfl rfl),
     fun h => row_decodedAt_of_encode (.ldF _) trivial (wordX_of_and h rfl rfl),
     fun h => row_decodedAt_of_encode (.ldB _) trivial (wordX_of_and h rfl rfl),
     fun h => row_decodedAt_of_encode (.ldMemVx _) trivial (wordX_of_and h rfl rfl),
     fun h => row_decodedAt_of_encode (.ldVxMem _) trivial (wordX_of_and h rfl rfl),
     List.forall_mem_nil _⟩

/-- A word that a row of the map selects decodes to an instruction of that row. -/
theorem decodedAt_of_selects {w : Word} {r : OpcodeRow} (hr : r ∈ opcodeRows) (h : r.selects w = true) :
    r.DecodedAt w := by
  have hand := (r.selects_iff w).mp h
  simp only [opcodeRows, List.mem_append] at hr
  obtain ((hr | hr) | hr) | hr := hr
  · exact rows0to7_decodedAt w r hr hand
  · exact rows8_decodedAt w r hr hand
  · exact rows9toE_decodedAt w r hr hand
  · exact rowsF_decodedAt w r hr hand

theorem row_mem_opcodeRows (i : Instr) : i.row ∈ opcodeRows := by
  cases i <;> simp only [Instr.row] <;> decide

/-- The family of Laws.EncodeRow as one statement about every instruction. -/
theorem row_selects_encode (i : Instr) : i.row.selects (encode i) = true := by
  cases i with
  | cls => exact Laws.EncodeRow.cls
  | ret => exact Laws.EncodeRow.ret
  | jp nnn => exact Laws.EncodeRow.jp nnn
  | call nnn => exact Laws.EncodeRow.call nnn
  | seByte x kk => exact Laws.EncodeRow.seByte x kk
  | sneByte x kk => exact Laws.EncodeRow.sneByte x kk
  | seReg x y => exact Laws.EncodeRow.seReg x y
  | ldByte x kk => exact Laws.EncodeRow.ldByte x kk
  | addByte x kk => exact Laws.EncodeRow.addByte x kk
  | ldReg x y => exact Laws.EncodeRow.ldReg x y
  | orReg x y => exact Laws.EncodeRow.orReg x y
  | andReg x y => exact Laws.EncodeRow.andReg x y
  | xorReg x y => exact Laws.EncodeRow.xorReg x y
  | addReg x y => exact Laws.EncodeRow.addReg x y
  | sub x y => exact Laws.EncodeRow.sub x y
  | shr x y => exact Laws.EncodeRow.shr x y
  | subn x y => exact Laws.EncodeRow.subn x y
  | shl x y => exact Laws.EncodeRow.shl x y
  | sneReg x y => exact Laws.EncodeRow.sneReg x y
  | ldI nnn => exact Laws.EncodeRow.ldI nnn
  | jpV0 nnn => exact Laws.EncodeRow.jpV0 nnn
  | rnd x kk => exact Laws.EncodeRow.rnd x kk
  | drw x y n => exact Laws.EncodeRow.drw x y n
  | skp x => exact Laws.EncodeRow.skp x
  | sknp x => exact Laws.EncodeRow.sknp x
  | ldVxDt x => exact Laws.EncodeRow.ldVxDt x
  | ldVxK x => exact Laws.EncodeRow.ldVxK x
  | ldDtVx x => exact Laws.EncodeRow.ldDtVx x
  | ldStVx x => exact Laws.EncodeRow.ldStVx x
  | addI x => exact Laws.EncodeRow.addI x
  | ldF x => exact Laws.EncodeRow.ldF x
  | ldB x => exact Laws.EncodeRow.ldB x
  | ldMemVx x => exact Laws.EncodeRow.ldMemVx x
  | ldVxMem x => exact Laws.EncodeRow.ldVxMem x

/-- Settles O3: a selected word is the encoding of an instruction of the row, and a word that decodes is the encoding of
its instruction, which the instruction's row selects. -/
theorem decoderFollowsTheOpcodeMap : Obligations.DecoderFollowsTheOpcodeMap := by
  refine fun w => ⟨fun r hr hsel => decodedAt_of_selects hr hsel, fun i hdec => ⟨row_mem_opcodeRows i, ?_⟩⟩
  rw [← encode_of_decodeWord hdec]
  exact row_selects_encode i

end Sys2Proof
end

section
/-! The proof of the step family (40_step_cycle.md): a word that no row of the opcode map selects does not decode, so the
step is the unmatched no-operation whatever the random input, and a STEP command reports OK. -/

namespace Sys2Proof

/-- An opcode that no row of the map selects decodes to none (30_encoding.md R78). -/
theorem decodeWord_eq_none_of_unselected {w : Word} (h : ∀ r ∈ opcodeRows, r.selects w = false) :
    decodeWord w = none := by
  refine Option.eq_none_iff_forall_ne_some.mpr fun i hdec => ?_
  obtain ⟨hmem, hsel⟩ := (decoderFollowsTheOpcodeMap w).2 i hdec
  exact Bool.false_ne_true ((h i.row hmem).symm.trans hsel)

end Sys2Proof

namespace Sys2Proof.Machine

/-- The default advance, the sum written as a number (40_step_cycle.md R93). -/
theorem State.advance_eq (s : State) : s.advance = { s with pc := BitVec.ofNat 16 (s.pc.toNat + 2) } := by
  rw [BitVec.ofNat_add, BitVec.ofNat_toNat, BitVec.setWidth_eq]
  rfl

/-- The random input takes no part in the fetch. -/
@[simp] theorem State.fetch_rndIn (s : State) (bs : List Byte) : ({ s with rndIn := bs } : State).fetch = s.fetch := rfl

/-- A fetched opcode that decodes to none is the no-operation of R95. -/
theorem step_eq_advance_of_unmatched {s : State} {w : Word} (hfetch : s.fetch = some w) (hdec : decodeWord w = none) :
    step s = .next s.advance := by
  rcases step_cases s with ⟨hnone, -⟩ | ⟨w', i, hw', hi, -⟩ | ⟨w', -, -, hstep⟩
  · cases hfetch.symm.trans hnone
  · cases hfetch.symm.trans hw'
    cases hdec.symm.trans hi
  · exact hstep

/-- STEP(rnd) reports OK with the next state of the step that holds `rnd` as its random input (46_host_commands.md
R174). -/
theorem issue_step_of_next {s t : State} {rnd : Byte} (p : Config.Params)
    (h : step { s with rndIn := [rnd] } = .next t) :
    issue p (.step rnd) s = ({ t with rndIn := s.rndIn }, .status .ok) := by
  simp only [issue, State.stepWith, h]

/-- Settles O10: no row selects the opcode, so it does not decode, and the step only advances, with the state's own random
input and with the command's. -/
theorem unmatchedOpcodeOnlyAdvances : Obligations.UnmatchedOpcodeOnlyAdvances := by
  intro s w hfetch hrows
  have hdec := decodeWord_eq_none_of_unselected hrows
  rw [← s.advance_eq]
  refine ⟨step_eq_advance_of_unmatched hfetch hdec, fun p rnd => ?_⟩
  have hstep := step_eq_advance_of_unmatched ((s.fetch_rndIn [rnd]).trans hfetch) hdec
  exact issue_step_of_next p hstep

end Sys2Proof.Machine
end

section
/-! The proofs of the control-transfer family (41_flow_control.md): an instruction's words through the encoder, a fault of
its meaning through the STEP command, and then each meaning through what it does to pc and the call stack. -/

namespace Sys2Proof.Machine

/-! ## Which words encode an instruction -/

/-- The words that an instruction's row selects are those that decode to it, once each of them is the encoding of the
instruction built from its own fields (30_encoding.md R75). -/
theorem encodedAs_of_encode {name : String} {mask value : Word} {build : Word → Instr}
    (hwf : ∀ w, (build w).WellFormed) (hrow : ∀ w, (build w).row = ⟨name, mask, value⟩)
    (henc : ∀ w, w &&& mask = value → encode (build w) = w) : EncodedAs mask value build := by
  refine fun w => ⟨fun hand => ?_, fun hdec => ?_⟩
  · have h := decodeWord_encode (build w) (hwf w)
    rwa [henc w hand] at h
  · have h := row_selects_encode (build w)
    rwa [encode_of_decodeWord hdec, OpcodeRow.selects_iff, hrow] at h

/-- 5xyn and 9xyn with n ≠ 0 are unmatched (R78). -/
theorem decodeWord_eq_none_of_fieldN_ne_zero {w : Word} (hop : fieldOp w = 5#4 ∨ fieldOp w = 9#4)
    (hn : fieldN w ≠ 0#4) : decodeWord w = none := by
  rcases hop with hop | hop <;> simp [decodeWord, hop, hn]

/-! ## A fault through the STEP command -/

/-- A step that fetches an opcode that decodes is the instruction's meaning (40_step_cycle.md R91). -/
theorem step_eq_exec_of_decode {s : State} {w : Word} {i : Instr} (hfetch : s.fetch = some w)
    (hdec : decodeWord w = some i) : step s = exec i s := by
  simp only [step, hfetch, hdec]

/-- A step with pc above 0x0FFE faults at the fetch (R92). -/
theorem step_eq_fault_of_lt_pc {s : State} (hpc : 0x0FFE < s.pc.toNat) : step s = .fault .memoryAccessViolation := by
  rcases s.fetch_cases with ⟨-, hfetch⟩ | ⟨hle, -⟩
  · simp only [step, hfetch, raise]
  · exact absurd hpc (Nat.not_lt.mpr hle)

/-- An instruction that faults raises the same fault with any random input: Cxkk, the one that draws from it, never
faults (60_exceptions.md section 2). -/
theorem exec_rndIn_of_fault {i : Instr} {s : State} {f : Fault} (h : exec i s = .fault f) (bs : List Byte) :
    exec i { s with rndIn := bs } = .fault f := by
  by_cases hrnd : ∃ x kk, i = .rnd x kk
  · obtain ⟨x, kk, rfl⟩ := hrnd
    cases h
  · push Not at hrnd
    rw [exec_of_rndIn i hrnd, h, mapNext]

/-- A STEP that fetches an instruction whose meaning faults reports the fault's status and changes nothing (R195). -/
theorem stepReportsAndKeeps_of_fault {i : Instr} {s : State} {f : Fault} (h : exec i s = .fault f) :
    StepReportsAndKeeps i f.status s := by
  intro p w rnd hfetch hdec
  have hstep : step { s with rndIn := [rnd] } = .fault f :=
    (step_eq_exec_of_decode ((s.fetch_rndIn [rnd]).trans hfetch) hdec).trans (exec_rndIn_of_fault h [rnd])
  simp only [issue, State.stepWith, hstep]

/-! ## pc after a jump and after a skip -/

@[simp] theorem toNat_addrOperand (nnn : Addr12) : (addrOperand nnn).toNat = nnn.toNat :=
  BitVec.toNat_setWidth_of_le (by decide)

/-- A skip advances pc by 4 or 2 as its condition says, and writes no register (40_step_cycle.md R94). -/
theorem State.exists_next_skipIf (s : State) {c : Bool} {P : Prop} [Decidable P] (hc : c = true ↔ P) :
    ∃ t, (.next (s.skipIf c) : Result) = .next t ∧ AdvancesBy (if P then 4 else 2) s t ∧ SameRegs s t := by
  refine ⟨_, rfl, ?_, fun r => s.reg_skipIf c r⟩
  by_cases h : P <;> simp [AdvancesBy, hc, h]

/-! ## The obligations -/

/-- Settles O16: `State.pop` through what `execRet` answers on an empty and on a non-empty stack. -/
theorem returnPopsTheAddress : Obligations.ReturnPopsTheAddress := by
  refine ⟨encodedAs_of_encode (fun _ => trivial) (fun _ => rfl) fun w => word_eq_of_and_allOnes,
    fun s => ?_⟩
  have hfault : exec .ret s = .fault .stackUnderflow ↔ s.sp.val = 0 :=
    (execRet_eq_fault s _).trans (and_iff_left rfl)
  refine ⟨fun h => ⟨_, (execRet_eq_next s _).mpr ⟨h, rfl⟩, rfl, rfl, rfl, fun r => rfl⟩, hfault, fun h => ?_⟩
  exact stepReportsAndKeeps_of_fault (hfault.mpr h)

/-- Settles O17: the next state differs in pc alone, so a jump to pc itself is no change, and one to 0xFFF leaves a pc
that cannot be fetched from. -/
theorem jumpSetsPc : Obligations.JumpSetsPc := by
  refine ⟨encodedAs_of_encode (fun _ => trivial) (fun _ => rfl) fun w h => wordNnn_of_and h rfl,
    fun nnn s => ⟨s.setPc (addrOperand nnn), rfl, toNat_addrOperand nnn, fun r => rfl, fun hself => ?_,
      fun hlast => ?_⟩⟩
  · have hpc : addrOperand nnn = s.pc := BitVec.eq_of_toNat_eq ((toNat_addrOperand nnn).trans hself)
    rw [hpc]
    rfl
  · apply step_eq_fault_of_lt_pc
    rw [State.setPc_pc, toNat_addrOperand, hlast]
    decide

/-- Settles O18: `State.push` through what `execCall` answers on a full and on a non-full stack. -/
theorem callPushesAndJumps : Obligations.CallPushesAndJumps := by
  refine ⟨encodedAs_of_encode (fun _ => trivial) (fun _ => rfl) fun w h => wordNnn_of_and h rfl,
    fun nnn s => ?_⟩
  have hfault : exec (.call nnn) s = .fault .stackOverflow ↔ s.sp.val = 16 :=
    (execCall_eq_fault nnn s _).trans (and_iff_left rfl)
  refine ⟨fun h => ⟨_, (execCall_eq_next nnn s _).mpr ⟨h, rfl⟩, toNat_addrOperand nnn, rfl, ?_, fun j hj => ?_,
    fun r => rfl⟩, hfault, fun h => stepReportsAndKeeps_of_fault (hfault.mpr h)⟩
  · simp
  · exact Vector.getElem_set_ne h j.isLt hj.symm

/-- Settles O19: the encodings as for the other instructions, and each skip by its condition. -/
theorem registerSkipsAdvanceByFourOrTwo : Obligations.RegisterSkipsAdvanceByFourOrTwo := by
  refine ⟨encodedAs_of_encode (fun _ => trivial) (fun _ => rfl) fun w h => wordXkk_of_and h rfl,
    encodedAs_of_encode (fun _ => trivial) (fun _ => rfl) fun w h => wordXkk_of_and h rfl,
    encodedAs_of_encode (fun _ => trivial) (fun _ => rfl) fun w h => wordXy_of_and h rfl rfl,
    encodedAs_of_encode (fun _ => trivial) (fun _ => rfl) fun w h => wordXy_of_and h rfl rfl,
    fun w => decodeWord_eq_none_of_fieldN_ne_zero, fun x y kk s => ⟨?_, ?_, ?_, ?_⟩⟩
  · exact s.exists_next_skipIf beq_iff_eq
  · exact s.exists_next_skipIf bne_iff_ne
  · exact s.exists_next_skipIf beq_iff_eq
  · exact s.exists_next_skipIf bne_iff_ne

end Sys2Proof.Machine
end

section
/-! The proofs of the load and arithmetic family (42_load_alu.md): what a register read and pc are after a write to Vx and
the default advance, and then each meaning through these rules. -/

namespace Sys2Proof.Machine

/-! ## A register write and the default advance -/

theorem State.reg_advance_setReg_same (s : State) (x : RegIdx) (b : Byte) : (s.setReg x b).advance.reg x = b := by
  rw [reg_advance, reg_setReg, if_pos rfl]

theorem State.reg_advance_setReg_of_ne (s : State) {x r : RegIdx} (b : Byte) (h : r ≠ x) :
    (s.setReg x b).advance.reg r = s.reg r := by
  rw [reg_advance, reg_setReg, if_neg h]

/-- A register written with its own value is no change. -/
@[simp] theorem State.setReg_reg_self (s : State) (x : RegIdx) : s.setReg x (s.reg x) = s := by
  rw [setReg, reg_eq, Fin.getElem_fin, Vector.set_getElem_self]

/-- A meaning that leaves pc alone up to the default advance advances it by 2 (40_step_cycle.md R93). -/
theorem State.advancesBy_two_advance {s t : State} (h : t.pc = s.pc) : AdvancesBy 2 s t.advance := by
  rw [AdvancesBy, advance_pc, h, BitVec.toNat_add]
  rfl

/-! ## The obligations -/

/-- Settles O24: each meaning writes one register and advances, and a register copied to itself is no write. -/
theorem loadsAndAddImmediateWriteVx : Obligations.LoadsAndAddImmediateWriteVx := by
  refine ⟨encodedAs_of_encode (fun _ => trivial) (fun _ => rfl) fun w h => wordXkk_of_and h rfl,
    encodedAs_of_encode (fun _ => trivial) (fun _ => rfl) fun w h => wordXkk_of_and h rfl,
    encodedAs_of_encode (fun _ => trivial) (fun _ => rfl) fun w h => wordXy_of_and h rfl rfl,
    fun x y kk s => ?_⟩
  have hVF (b : Byte) (hx : x ≠ regF) := s.reg_advance_setReg_of_ne b hx.symm
  have hpc (b : Byte) := State.advancesBy_two_advance (s.setReg_pc x b)
  refine ⟨⟨(s.setReg x kk).advance, rfl, s.reg_advance_setReg_same x kk, hVF kk, hpc kk⟩,
    ⟨(s.setReg x (s.reg x + kk)).advance, rfl, ?_, hVF _, hpc _⟩,
    ⟨(s.setReg x (s.reg y)).advance, rfl, s.reg_advance_setReg_same x _, s.reg_advance_setReg_of_ne _, hVF _, ?_,
      hpc _⟩⟩
  · rw [State.reg_advance_setReg_same, BitVec.toNat_add]
  · rintro rfl
    rw [State.setReg_reg_self]
    rfl

end Sys2Proof.Machine
end

section
/-! The proofs of the index and memory family (43_index_memory.md). -/

namespace Sys2Proof.Machine

/-! ## The obligations -/

/-- Settles O33: the meaning writes I with the address, whose number is nnn, and advances. -/
theorem loadIndexSetsI : Obligations.LoadIndexSetsI := by
  refine ⟨encodedAs_of_encode (fun _ => trivial) (fun _ => rfl) fun w h => wordNnn_of_and h rfl,
    fun nnn s => ⟨(s.setI (addrOperand nnn)).advance, rfl, ?_, fun r => ?_, ?_⟩⟩
  · rw [State.advance_i, State.setI_i, toNat_addrOperand]
  · rw [State.reg_advance, State.reg_setI]
  · exact State.advancesBy_two_advance (s.setI_pc (addrOperand nnn))

end Sys2Proof.Machine
end

section
/-! The proofs of the display family (44_display.md). -/

namespace Sys2Proof.Machine

/-! ## A display write -/

/-- A display written with itself is no change. -/
@[simp] theorem State.setDisp_disp_self (s : State) : s.setDisp s.disp = s := rfl

/-- A display with no pixel lit is the blank display. -/
theorem eq_blankDisplay_of_pixel {d : Display} (h : ∀ r c, pixel d r c = false) : d = blankDisplay :=
  display_ext d blankDisplay fun r c => (h r c).trans (pixel_blank r c).symm

/-! ## The obligations -/

/-- Settles O40: the meaning writes the blank display and advances, and on a clear display that write is no change. -/
theorem clearBlanksTheDisplay : Obligations.ClearBlanksTheDisplay := by
  refine ⟨encodedAs_of_encode (fun _ => trivial) (fun _ => rfl) fun w => word_eq_of_and_allOnes,
    fun s => ⟨(s.setDisp blankDisplay).advance, rfl, fun r c => ?_, fun r => ?_, ?_, fun hclear => ?_⟩⟩
  · rw [State.advance_disp, State.setDisp_disp, pixel_blank]
  · rw [State.reg_advance, State.reg_setDisp]
  · exact State.advancesBy_two_advance (s.setDisp_pc blankDisplay)
  · rw [← eq_blankDisplay_of_pixel hclear, State.setDisp_disp_self]
    rfl

end Sys2Proof.Machine
end

section
/-! The proofs of the keypad and timer family (45_keypad_timers.md). -/

namespace Sys2Proof.Machine

/-! ## The sound timer over many TICKs -/

/-- Each TICK takes one off ST until it is 0 (46_host_commands.md R175). -/
theorem State.toNat_st_iterate_tick (s : State) (k : Nat) : (State.tick^[k] s).st.toNat = s.st.toNat - k := by
  induction k with
  | zero => rfl
  | succ k ih => rw [Function.iterate_succ_apply', tick_st, tickTimer_toNat, ih, Nat.sub_sub]

/-- After k TICKs the sound flag is on exactly if ST was above k (R165). -/
theorem State.sound_iterate_tick (s : State) (k : Nat) : (State.tick^[k] s).sound = decide (k < s.st.toNat) := by
  rw [sound, toNat_st_iterate_tick, decide_eq_decide]
  exact Nat.sub_pos_iff_lt

/-! ## The obligations -/

/-- Settles O46: each meaning is one copy and the default advance, and the sound flag counts down from the copied ST. -/
theorem timerInstructionsCopyBytes : Obligations.TimerInstructionsCopyBytes := by
  refine ⟨encodedAs_of_encode (fun _ => trivial) (fun _ => rfl) fun w h => wordX_of_and h rfl rfl,
    encodedAs_of_encode (fun _ => trivial) (fun _ => rfl) fun w h => wordX_of_and h rfl rfl,
    encodedAs_of_encode (fun _ => trivial) (fun _ => rfl) fun w h => wordX_of_and h rfl rfl,
    fun x s => ⟨?_, ?_, ?_⟩⟩
  · exact ⟨(s.setReg x s.dt).advance, rfl, s.reg_advance_setReg_same x s.dt, rfl,
      fun hx => s.reg_advance_setReg_of_ne s.dt hx.symm, State.advancesBy_two_advance (s.setReg_pc x s.dt)⟩
  · exact ⟨(s.setDt (s.reg x)).advance, rfl, rfl, rfl, fun r => rfl,
      State.advancesBy_two_advance (s.setDt_pc (s.reg x))⟩
  · exact ⟨(s.setSt (s.reg x)).advance, rfl, rfl, rfl, fun r => rfl,
      State.advancesBy_two_advance (s.setSt_pc (s.reg x)), State.sound_iterate_tick (s.setSt (s.reg x)).advance⟩

end Sys2Proof.Machine
end

section
/-! The proofs of the host command family (46_host_commands.md). -/

namespace Sys2Proof.Machine

/-! ## What a TICK leaves unchanged -/

/-- A TICK's whole effect is on the two timers: with both put back, the state is the one before (R175). -/
theorem State.tick_restore_timers (s : State) : { s.tick with dt := s.dt, st := s.st } = s := rfl

/-! ## The obligations -/

/-- Settles O55: a TICK sets DT and ST by `tickTimer`, one less and floored at 0, and no other field. -/
theorem tickDecrementsBothTimers : Obligations.TickDecrementsBothTimers := by
  refine fun p s => ⟨s.tick, issue_tick p s, ?_, ?_, s.tick_restore_timers⟩
  · rw [State.tick_dt, tickTimer_toNat]
  · rw [State.tick_st, tickTimer_toNat]

end Sys2Proof.Machine
end

section
/-! The proofs of the exceptions family (60_exceptions.md): which instruction can raise which fault, said once, and then
the two stack faults through it. -/

namespace Sys2Proof.Machine

/-- An instruction that faults is a CALL on a full stack, a RET on an empty one, or an access through I beyond the memory
(60_exceptions.md section 1). -/
theorem exec_fault_cases {i : Instr} {s : State} {f : Fault} (h : exec i s = .fault f) :
    ((∃ nnn, i = .call nnn) ∧ s.sp.val = Config.stackDepth ∧ f = .stackOverflow) ∨
    (i = .ret ∧ s.sp.val = 0 ∧ f = .stackUnderflow) ∨
    f = .memoryAccessViolation := by
  have range {len : Nat} {t : State} (h : s.withRangeAtI len t = .fault f) : f = .memoryAccessViolation :=
    ((s.withRangeAtI_eq_fault len t f).mp h).2
  cases i with
  | call nnn => exact .inl ⟨⟨nnn, rfl⟩, (execCall_eq_fault nnn s f).mp h⟩
  | ret => exact .inr (.inl ⟨rfl, (execRet_eq_fault s f).mp h⟩)
  | drw x y n => exact .inr (.inr (range h))
  | ldB x => exact .inr (.inr (range h))
  | ldMemVx x => exact .inr (.inr (range h))
  | ldVxMem x => exact .inr (.inr (range h))
  | ldVxK x => rcases execLdVxK_cases x s with ⟨-, e⟩ | ⟨-, e⟩ <;> cases e.symm.trans h
  | _ => cases h

/-- Only 2nnn raises StackOverflow, and exactly on a full stack (R192). -/
theorem exec_eq_stackOverflow (i : Instr) (s : State) :
    exec i s = .fault .stackOverflow ↔ (∃ nnn, i = .call nnn) ∧ s.sp.val = 16 := by
  constructor
  · intro h
    rcases exec_fault_cases h with ⟨hcall, hfull, -⟩ | ⟨-, -, hf⟩ | hf
    · exact ⟨hcall, hfull⟩
    · cases hf
    · cases hf
  · rintro ⟨⟨nnn, rfl⟩, hfull⟩
    exact (execCall_eq_fault nnn s _).mpr ⟨hfull, rfl⟩

/-- Only 00EE raises StackUnderflow, and exactly on an empty stack (R193). -/
theorem exec_eq_stackUnderflow (i : Instr) (s : State) :
    exec i s = .fault .stackUnderflow ↔ i = .ret ∧ s.sp.val = 0 := by
  constructor
  · intro h
    rcases exec_fault_cases h with ⟨-, -, hf⟩ | ⟨hret, hempty, -⟩ | hf
    · cases hf
    · exact ⟨hret, hempty⟩
    · cases hf
  · rintro ⟨rfl, hempty⟩
    exact (execRet_eq_fault s _).mpr ⟨hempty, rfl⟩

/-! ## The obligations -/

/-- Settles O14: each stack fault by its own instruction alone, and through the STEP command as every fault of a
meaning. -/
theorem stackFaultsExactly : Obligations.StackFaultsExactly := fun i s =>
  ⟨exec_eq_stackOverflow i s, exec_eq_stackUnderflow i s, stepReportsAndKeeps_of_fault, stepReportsAndKeeps_of_fault⟩

end Sys2Proof.Machine
end

section
/-! The rest of the encoding family (30_encoding.md): the round trips between instructions, words and bytes, that the
rows of the opcode map are disjoint, and the unmatched opcodes in numbers. -/

namespace Sys2Proof

/-! ## The round trips -/

/-- Settles O6: the two bytes make the word again, and the decoder undoes the encoder on words. -/
theorem decodeOfEncodeIsTheInstruction : Obligations.DecodeOfEncodeIsTheInstruction := by
  intro i rest hi
  simp only [encodeBytes, List.cons_append, List.nil_append, decode, Machine.opcodeOfBytes_bytes,
    decodeWord_encode i hi]

/-- The decoder answers well-formed instructions only: the sprite height has four bits (30_encoding.md R74). -/
theorem wellFormed_of_decodeWord {w : Word} {i : Instr} (h : decodeWord w = some i) : i.WellFormed := by
  cases i with
  | drw x y n =>
    have hop : fieldOp w = 0xD#4 := by
      rw [← encode_of_decodeWord h]
      exact fieldOp_wordXyn 0xD#4 x y _
    have hfields : decodeWord w = some (.drw (fieldX w) (fieldY w) (fieldN w).toNat) := by
      simp only [decodeWord, hop]
    cases h.symm.trans hfields
    exact Nat.le_of_lt_succ (fieldN w).isLt
  | _ => trivial

/-- Settles O7: the encoder undoes the decoder, which answers well-formed instructions only. -/
theorem encodeOfDecodeIsTheOpcode : Obligations.EncodeOfDecodeIsTheOpcode := fun _ _ h =>
  ⟨wellFormed_of_decodeWord h, encode_of_decodeWord h⟩

/-- Settles O8: the decoder evaluated at each of the twenty words. -/
theorem sampleWordsDecodeAsWritten : Obligations.SampleWordsDecodeAsWritten := by
  unfold Obligations.SampleWordsDecodeAsWritten
  decide

/-- Settles O4: a word decodes to an instruction of each row that selects it, and it decodes to one instruction only. -/
theorem noOpcodeMatchesTwoRows : Obligations.NoOpcodeMatchesTwoRows := by
  intro w r hr r' hr' hsel hsel'
  obtain ⟨i, hi, rfl⟩ := decodedAt_of_selects hr hsel
  obtain ⟨i', hi', rfl⟩ := decodedAt_of_selects hr' hsel'
  cases hi.symm.trans hi'
  rfl

/-! ## The unmatched opcodes (R78) -/

theorem decodeFamily8_eq_none_iff (x y : RegIdx) (n : BitVec 4) :
    decodeFamily8 x y n = none ↔ 8 ≤ n.toNat ∧ n.toNat ≠ 0xE := by
  have hn : ∀ n : BitVec 4,
      n ∉ [0x0#4, 0x1#4, 0x2#4, 0x3#4, 0x4#4, 0x5#4, 0x6#4, 0x7#4, 0xE#4] ↔ 8 ≤ n.toNat ∧ n.toNat ≠ 0xE := by decide
  rw [← hn]
  unfold decodeFamily8
  split <;> simp_all

theorem decodeFamilyE_eq_none_iff (x : RegIdx) (kk : Byte) :
    decodeFamilyE x kk = none ↔ kk.toNat ≠ 0x9E ∧ kk.toNat ≠ 0xA1 := by
  unfold decodeFamilyE
  split <;> simp_all [← BitVec.toNat_inj]

theorem decodeFamilyF_eq_none_iff (x : RegIdx) (kk : Byte) :
    decodeFamilyF x kk = none ↔ kk.toNat ∉ [0x07, 0x0A, 0x15, 0x18, 0x1E, 0x29, 0x33, 0x55, 0x65] := by
  unfold decodeFamilyF
  split <;> simp_all [← BitVec.toNat_inj]

/-- The sixteen values of the family field (R72). -/
def opFamilies : List (BitVec 4) :=
  [0x0#4, 0x1#4, 0x2#4, 0x3#4, 0x4#4, 0x5#4, 0x6#4, 0x7#4, 0x8#4, 0x9#4, 0xA#4, 0xB#4, 0xC#4, 0xD#4, 0xE#4, 0xF#4]

theorem mem_opFamilies : ∀ op : BitVec 4, op ∈ opFamilies := by decide

/-- Settles O5: the decoder's families one by one, the word's numbers read as its fields. -/
theorem unmatchedOpcodesByFamily : Obligations.UnmatchedOpcodesByFamily := by
  intro w
  have hnone : (if w = 0x00E0#16 then some Instr.cls else if w = 0x00EE#16 then some .ret else none) = none ↔
      w.toNat ≠ 0x00E0 ∧ w.toNat ≠ 0x00EE := by
    split_ifs <;> simp_all [← BitVec.toNat_inj]
  have hn : fieldN w = 0#4 ↔ (fieldN w).toNat = 0 := BitVec.toNat_inj.symm
  rw [← toNat_fieldOp, ← toNat_fieldN, ← toNat_fieldKk]
  unfold decodeWord
  split
  case h_1 hop => simp [hop, hnone]
  case h_6 hop => simp [hop, hn]
  case h_9 hop => simp [hop, decodeFamily8_eq_none_iff]
  case h_10 hop => simp [hop, hn]
  case h_15 hop => simp [hop, decodeFamilyE_eq_none_iff]
  case h_16 hop => simp [hop, decodeFamilyF_eq_none_iff]
  case h_17 =>
    have hop := mem_opFamilies (fieldOp w)
    simp_all [opFamilies]
  all_goals simp [*]

end Sys2Proof
end

section
/-! What an instruction may change, said once for all instructions: the piece of state it owns besides registers and pc
(the owner column of 10_state.md R20), the registers it may write, and what it does to pc. The frames of the families
follow from these. -/

namespace Sys2Proof

/-! ## The owners of the pieces of state (10_state.md R20) -/

/-- A piece of the state that only its owners write: all but the registers and pc. -/
inductive Piece where
  | index | stack | delay | sound | memory | display | keys | random

/-- The piece of state that the instruction may write besides registers and pc, by the owner column of R20 (the random
input is the model's own, log 1). -/
def Instr.ownedPiece : Instr → Option Piece
  | .ldI _ | .addI _ | .ldF _ => some .index
  | .ret | .call _ => some .stack
  | .ldDtVx _ => some .delay
  | .ldStVx _ => some .sound
  | .ldB _ | .ldMemVx _ => some .memory
  | .cls | .drw _ _ _ => some .display
  | .rnd _ _ => some .random
  | _ => none

end Sys2Proof

namespace Sys2Proof.Machine

/-- The piece is the same in both states. -/
def SamePiece (s t : State) : Piece → Prop
  | .index => t.i = s.i
  | .stack => (t.sp, t.stack) = (s.sp, s.stack)
  | .delay => t.dt = s.dt
  | .sound => t.st = s.st
  | .memory => t.mem = s.mem
  | .display => t.disp = s.disp
  | .keys => t.keys = s.keys
  | .random => (t.rndIn, t.rndIndex) = (s.rndIn, s.rndIndex)

/-- An access at I that answers a next state answers its effect. -/
theorem State.eq_of_withRangeAtI {s t u : State} {len : Nat} (h : s.withRangeAtI len u = .next t) : t = u :=
  ((s.withRangeAtI_eq_next len u t).mp h).2

/-- An instruction leaves every piece of state it does not own as it was: the piece it owns is ruled out by `hp`, and
each other one is not written. -/
theorem samePiece_of_not_owned {i : Instr} {s t : State} (h : exec i s = .next t) {p : Piece}
    (hp : i.ownedPiece ≠ some p) : SamePiece s t p := by
  cases i with
  | ret => obtain ⟨-, rfl⟩ := (execRet_eq_next s t).mp h; cases p <;> trivial
  | call nnn => obtain ⟨-, rfl⟩ := (execCall_eq_next nnn s t).mp h; cases p <;> trivial
  | drw x y n => obtain rfl := State.eq_of_withRangeAtI h; cases p <;> trivial
  | ldB x => obtain rfl := State.eq_of_withRangeAtI h; cases p <;> trivial
  | ldMemVx x => obtain rfl := State.eq_of_withRangeAtI h; cases p <;> trivial
  | ldVxMem x => obtain rfl := State.eq_of_withRangeAtI h; cases p <;> trivial
  | ldVxK x => rcases execLdVxK_cases x s with ⟨-, e⟩ | ⟨-, e⟩ <;> cases e.symm.trans h <;> cases p <;> trivial
  | rnd x kk => simp only [exec, execRnd, State.dropRandom] at h; split at h <;> cases h <;> cases p <;> trivial
  | _ => cases h; cases p <;> trivial

theorem ownedPiece_of_changed {i : Instr} {s t : State} (h : exec i s = .next t) {p : Piece}
    (hp : ¬ SamePiece s t p) : i.ownedPiece = some p :=
  not_imp_comm.mp (samePiece_of_not_owned h) hp

/-! ## The frame conditions of the statements, piece by piece -/

section
variable {i : Instr} {s t : State} (h : exec i s = .next t)
include h

theorem sameStack_of_not_owned (hi : i.ownedPiece ≠ some .stack) : SameStack s t :=
  Prod.mk.inj (samePiece_of_not_owned h hi)

theorem sameTimers_of_not_owned (hd : i.ownedPiece ≠ some .delay) (hs : i.ownedPiece ≠ some .sound) :
    SameTimers s t :=
  ⟨samePiece_of_not_owned h hd, samePiece_of_not_owned h hs⟩

theorem sameMemory_of_not_owned (hi : i.ownedPiece ≠ some .memory) : SameMemory s t := fun a =>
  congrArg (·.read a) (samePiece_of_not_owned h hi)

theorem sameDisplay_of_not_owned (hi : i.ownedPiece ≠ some .display) : SameDisplay s t := fun r c =>
  congrArg (pixel · r c) (samePiece_of_not_owned h hi)

theorem keys_eq_of_next : t.keys = s.keys :=
  samePiece_of_not_owned h (p := .keys) (by cases i <;> nofun)

theorem sameInputs_of_not_owned (hi : i.ownedPiece ≠ some .random) : SameInputs s t :=
  ⟨keys_eq_of_next h, Prod.mk.inj (samePiece_of_not_owned h hi)⟩

/-- What an instruction that owns no piece leaves unchanged. -/
theorem frame_of_owns_nothing (hi : i.ownedPiece = none) :
    t.i = s.i ∧ SameStack s t ∧ SameTimers s t ∧ SameMemory s t ∧ SameDisplay s t ∧ SameInputs s t := by
  have hp (p : Piece) : i.ownedPiece ≠ some p := hi ▸ nofun
  exact ⟨samePiece_of_not_owned h (hp .index), sameStack_of_not_owned h (hp _), sameTimers_of_not_owned h (hp _) (hp _),
    sameMemory_of_not_owned h (hp _), sameDisplay_of_not_owned h (hp _), sameInputs_of_not_owned h (hp _)⟩

end

end Sys2Proof.Machine

/-! ## The registers an instruction may write -/

namespace Sys2Proof

/-- The registers an instruction names as its destination, and VF for the flag writers (10_state.md R22). -/
def Instr.MayWrite : Instr → RegIdx → Prop
  | .ldByte x _, r | .addByte x _, r | .rnd x _, r | .ldReg x _, r | .orReg x _, r | .andReg x _, r | .xorReg x _, r
  | .ldVxDt x, r | .ldVxK x, r => r = x
  | .addReg x _, r | .sub x _, r | .subn x _, r | .shr x _, r | .shl x _, r => r = x ∨ r = Machine.regF
  | .drw _ _ _, r => r = Machine.regF
  | .ldVxMem x, r => r ≤ x
  | _, _ => False

end Sys2Proof

namespace Sys2Proof.Machine

theorem State.reg_advance_setFlagReg_of_ne (s : State) (f : Byte) {x r : RegIdx} (b : Byte)
    (h : ¬ (r = x ∨ r = regF)) : (s.setFlagReg f x b).advance.reg r = s.reg r := by
  obtain ⟨hx, hF⟩ := not_or.mp h
  rw [reg_advance, reg_setFlagReg, if_neg hx, if_neg hF]

/-- A register after V0 to Vx are loaded from a list of x + 1 bytes (43_index_memory.md R145). -/
theorem getElem_fillRegs_of_length (v : Vector Byte 16) (x r : RegIdx) (bs : List Byte) (hlen : bs.length = x.val + 1) :
    (fillRegs 0 v bs)[r] = if h : r ≤ x then bs[r.val]'(by have : r.val ≤ x.val := h; omega) else v[r] := by
  rw [Fin.getElem_fin, getElem_fillRegs, if_pos (Nat.zero_le _), Nat.sub_zero, List.getD_eq_getElem?_getD]
  split
  next h => rw [List.getElem?_eq_getElem]; rfl
  next h =>
    have : x.val < r.val := not_le.mp h
    rw [List.getElem?_eq_none (by omega)]
    rfl

/-- An instruction leaves every register it may not write as it was. -/
theorem reg_of_not_mayWrite {i : Instr} {s t : State} (h : exec i s = .next t) {r : RegIdx} (hr : ¬ i.MayWrite r) :
    t.reg r = s.reg r := by
  cases i with
  | ldByte | addByte | ldReg | orReg | andReg | xorReg | ldVxDt => cases h; exact s.reg_advance_setReg_of_ne _ hr
  | rnd x kk => cases h; exact (s.dropRandom.reg_advance_setReg_of_ne _ hr).trans (s.reg_dropRandom r)
  | ldVxK x =>
    rcases execLdVxK_cases x s with ⟨-, e⟩ | ⟨-, e⟩ <;> cases e.symm.trans h
    · rfl
    · exact s.reg_advance_setReg_of_ne _ hr
  | addReg | sub | subn | shr | shl => cases h; exact s.reg_advance_setFlagReg_of_ne _ _ hr
  | drw x y n => obtain rfl := State.eq_of_withRangeAtI h; exact State.reg_advance_setReg_of_ne _ _ hr
  | ldVxMem x =>
    obtain rfl := State.eq_of_withRangeAtI h
    exact (getElem_fillRegs_of_length s.v x r _ (Memory.length_readBytes _ _ _)).trans (dif_neg hr)
  | ret => obtain ⟨-, rfl⟩ := (execRet_eq_next s t).mp h; rfl
  | call nnn => obtain ⟨-, rfl⟩ := (execCall_eq_next nnn s t).mp h; rfl
  | ldB x => obtain rfl := State.eq_of_withRangeAtI h; rfl
  | ldMemVx x => obtain rfl := State.eq_of_withRangeAtI h; rfl
  | _ => cases h; rfl

/-! ## pc after an instruction -/

/-- What an instruction leaves in pc, by the table of 10_state.md section 4. -/
def PcAfter (s t : State) : Instr → Prop
  | .ret => ∃ h : 0 < s.sp.val, t.pc = s.stack[s.sp.val - 1]'(by omega)
  | .jp nnn | .call nnn => t.pc = addrOperand nnn
  | .jpV0 nnn => t.pc = s.regWord 0 + addrOperand nnn
  | .seByte _ _ | .sneByte _ _ | .seReg _ _ | .sneReg _ _ | .skp _ | .sknp _ => t.pc = s.pc + 4#16 ∨ t.pc = s.pc + 2#16
  | .ldVxK _ => (s.keys = 0#16 ∧ t = s) ∨ t.pc = s.pc + 2#16
  | _ => t.pc = s.pc + 2#16

theorem State.skipIf_pc_cases (s : State) (c : Bool) :
    (s.skipIf c).pc = s.pc + 4#16 ∨ (s.skipIf c).pc = s.pc + 2#16 := by
  cases c
  · exact .inr rfl
  · exact .inl rfl

theorem pcAfter_of_next {i : Instr} {s t : State} (h : exec i s = .next t) : PcAfter s t i := by
  cases i with
  | ret => obtain ⟨hsp, rfl⟩ := (execRet_eq_next s t).mp h; exact ⟨hsp, rfl⟩
  | call nnn => obtain ⟨-, rfl⟩ := (execCall_eq_next nnn s t).mp h; rfl
  | seByte | sneByte | seReg | sneReg | skp | sknp => cases h; exact s.skipIf_pc_cases _
  | ldVxK x =>
    rcases execLdVxK_cases x s with ⟨hk, e⟩ | ⟨-, e⟩ <;> cases e.symm.trans h
    · exact .inl ⟨hk, rfl⟩
    · exact .inr rfl
  | rnd x kk => cases h; exact congrArg (· + 2#16) s.dropRandom_pc
  | drw x y n => obtain rfl := State.eq_of_withRangeAtI h; rfl
  | ldB x => obtain rfl := State.eq_of_withRangeAtI h; rfl
  | ldMemVx x => obtain rfl := State.eq_of_withRangeAtI h; rfl
  | ldVxMem x => obtain rfl := State.eq_of_withRangeAtI h; rfl
  | _ => cases h; rfl

theorem advancesBy_two_of_pc {s t : State} (h : t.pc = s.pc + 2#16) : AdvancesBy 2 s t := by
  rw [AdvancesBy, h, BitVec.toNat_add]
  rfl

/-! ## The obligations -/

/-- Settles O49: a changed piece is owned by the instruction, and the table of owners is read off. -/
theorem onlyOwnersWriteEachPieceOfState : Obligations.OnlyOwnersWriteEachPieceOfState := by
  intro i s t h
  have hstack := not_imp_comm.mp (sameStack_of_not_owned h)
  have hinput := not_imp_comm.mp (sameInputs_of_not_owned h)
  refine ⟨keys_eq_of_next h, fun hne => ?_, fun hne => ?_, fun hne => ?_, fun hne => ?_, fun hne => ?_, fun hne => ?_,
    fun hne => ?_⟩
  · cases i <;> cases ownedPiece_of_changed h (p := .index) hne <;> simp
  · cases i <;> cases hstack hne <;> simp
  · cases i <;> cases ownedPiece_of_changed h (p := .delay) hne; exact ⟨_, rfl⟩
  · cases i <;> cases ownedPiece_of_changed h (p := .sound) hne; exact ⟨_, rfl⟩
  · cases i <;> cases ownedPiece_of_changed h (p := .memory) hne <;> simp
  · cases i <;> cases ownedPiece_of_changed h (p := .display) hne <;> simp
  · cases i <;> cases hinput hne; exact ⟨_, _, rfl⟩

/-- Settles O50: a changed VF is a register the instruction may write, so VF is its destination or its flag. -/
theorem onlyFlagWritersOrDestinationsTouchVF : Obligations.OnlyFlagWritersOrDestinationsTouchVF := by
  intro i s t h hne
  have hw : i.MayWrite regF := not_imp_comm.mp (reg_of_not_mayWrite h) hne
  cases i with
  | ldByte | addByte | rnd | ldReg | orReg | andReg | xorReg | ldVxDt | ldVxK => cases hw; simp
  | ldVxMem x =>
    cases Fin.last_le_iff.mp hw
    simp [regF]
  | addReg | sub | subn | shr | shl | drw => simp
  | _ => exact hw.elim

/-- Settles O51: in the table of pc every instruction but the excluded ones has the sequential advance. -/
theorem everyOtherInstructionAdvancesByTwo : Obligations.EveryOtherInstructionAdvancesByTwo := by
  intro i s t h hret hjump hbyte hreg hkey hwait
  have hpc := pcAfter_of_next h
  cases i with
  | ret => exact absurd rfl hret
  | jp nnn => exact absurd rfl (hjump nnn).1
  | call nnn => exact absurd rfl (hjump nnn).2.1
  | jpV0 nnn => exact absurd rfl (hjump nnn).2.2
  | seByte x kk => exact absurd rfl (hbyte x kk).1
  | sneByte x kk => exact absurd rfl (hbyte x kk).2
  | seReg x y => exact absurd rfl (hreg x y).1
  | sneReg x y => exact absurd rfl (hreg x y).2
  | skp x => exact absurd rfl (hkey x).1
  | sknp x => exact absurd rfl (hkey x).2
  | ldVxK x => exact advancesBy_two_of_pc (hpc.resolve_left fun hstall => hwait x rfl hstall.1)
  | _ => exact advancesBy_two_of_pc hpc

end Sys2Proof.Machine
end

section
/-! The frames of the families (00_scope.md section 6, the spec's decision D9, log 10), each from the pieces its
instructions do not own and the registers they may not write. -/

namespace Sys2Proof.Machine

/-- A piece other than the one an instruction owns is not owned. -/
theorem ownedPiece_ne {i : Instr} {q p : Piece} (hi : i.ownedPiece = some q) (hne : q ≠ p) : i.ownedPiece ≠ some p :=
  fun h => hne (Option.some.inj (hi.symm.trans h))

/-- A stack slot after RET, or after CALL where it is not the one pushed to, is as it was (10_state.md R29, R30). -/
theorem stack_slot_of_ret_or_call {i : Instr} {s t : State} (hi : i = .ret ∨ ∃ nnn, i = .call nnn)
    (h : exec i s = .next t) (j : Fin Config.stackDepth) (hj : i = .ret ∨ j.val ≠ s.sp.val) :
    t.stack[j] = s.stack[j] := by
  rcases hi with rfl | ⟨nnn, rfl⟩
  · obtain ⟨-, rfl⟩ := (execRet_eq_next s t).mp h
    rfl
  · obtain ⟨hsp, rfl⟩ := (execCall_eq_next nnn s t).mp h
    exact Vector.getElem_set_ne hsp j.isLt (hj.resolve_left nofun).symm

/-! ## The obligations -/

/-- Settles O22: a jump or a skip owns no piece and may write no register. -/
theorem jumpsAndSkipsChangeOnlyPc : Obligations.JumpsAndSkipsChangeOnlyPc := by
  intro i s t hi h
  have hown : i.ownedPiece = none ∧ ∀ r, ¬ i.MayWrite r := by
    rcases hi with ⟨nnn, rfl | rfl⟩ | ⟨x, kk, rfl | rfl⟩ | ⟨x, y, rfl | rfl⟩ | ⟨x, rfl | rfl⟩ <;>
      exact ⟨rfl, fun _ => id⟩
  obtain ⟨hnone, hregs⟩ := hown
  exact ⟨fun r => reg_of_not_mayWrite h (hregs r), frame_of_owns_nothing h hnone⟩

/-- Settles O23: CALL and RET own the stack alone and may write no register. -/
theorem callAndReturnChangeOnlyPcAndStack : Obligations.CallAndReturnChangeOnlyPcAndStack := by
  intro i s t hi h
  have hown : i.ownedPiece = some .stack ∧ ∀ r, ¬ i.MayWrite r := by
    rcases hi with rfl | ⟨nnn, rfl⟩ <;> exact ⟨rfl, fun _ => id⟩
  obtain ⟨hstack, hregs⟩ := hown
  have hp {p : Piece} (hne : Piece.stack ≠ p) := ownedPiece_ne hstack hne
  exact ⟨fun r => reg_of_not_mayWrite h (hregs r), samePiece_of_not_owned h (hp (p := .index) nofun),
    sameTimers_of_not_owned h (hp nofun) (hp nofun), sameMemory_of_not_owned h (hp nofun),
    sameDisplay_of_not_owned h (hp nofun), sameInputs_of_not_owned h (hp nofun), stack_slot_of_ret_or_call hi h⟩

/-- Settles O31: a register writer may write Vx alone, and owns no piece, except that RND owns the random input. -/
theorem registerWritersChangeOnlyVx : Obligations.RegisterWritersChangeOnlyVx := by
  intro i x s t hi h
  have hown : (i.ownedPiece = none ∨ ∃ kk, i = .rnd x kk) ∧ ∀ r, ¬ r = x → ¬ i.MayWrite r := by
    rcases hi with ⟨kk, rfl | rfl | rfl⟩ | ⟨y, rfl | rfl | rfl | rfl⟩ | rfl | rfl
    case inl.inr.inr => exact ⟨.inr ⟨kk, rfl⟩, fun _ => id⟩
    all_goals exact ⟨.inl rfl, fun _ => id⟩
  obtain ⟨hpiece, hregs⟩ := hown
  have hp {p : Piece} (hne : Piece.random ≠ p) : i.ownedPiece ≠ some p := by
    rcases hpiece with hnone | ⟨kk, rfl⟩
    · exact hnone ▸ nofun
    · exact ownedPiece_ne rfl hne
  refine ⟨fun r hr => reg_of_not_mayWrite h (hregs r hr), samePiece_of_not_owned h (hp (p := .index) nofun),
    sameStack_of_not_owned h (hp nofun), sameTimers_of_not_owned h (hp nofun) (hp nofun),
    sameMemory_of_not_owned h (hp nofun), sameDisplay_of_not_owned h (hp nofun), keys_eq_of_next h, fun hrnd => ?_⟩
  have hnone := hpiece.resolve_right (not_exists.mpr hrnd)
  exact sameInputs_of_not_owned h (hnone ▸ nofun)

/-- Settles O32: the arithmetic with flag may write Vx and VF, and owns no piece. -/
theorem flagWritersChangeOnlyVxAndVF : Obligations.FlagWritersChangeOnlyVxAndVF := by
  intro i x y s t hi h
  have hown : i.ownedPiece = none ∧ ∀ r, ¬ (r = x ∨ r = regF) → ¬ i.MayWrite r := by
    rcases hi with rfl | rfl | rfl | rfl | rfl <;> exact ⟨rfl, fun _ => id⟩
  obtain ⟨hnone, hregs⟩ := hown
  exact ⟨fun r hr => reg_of_not_mayWrite h (hregs r hr), frame_of_owns_nothing h hnone⟩

/-- Settles O35: each of these instructions owns I or one timer alone, and may write no register. -/
theorem indexAndTimerWritersChangeOnlyTheirRegister : Obligations.IndexAndTimerWritersChangeOnlyTheirRegister := by
  intro i s t h
  refine ⟨fun hi => ?_, ?_, ?_⟩
  · have hown : i.ownedPiece = some .index ∧ ∀ r, ¬ i.MayWrite r := by
      rcases hi with ⟨nnn, rfl⟩ | ⟨x, rfl | rfl⟩ <;> exact ⟨rfl, fun _ => id⟩
    obtain ⟨hindex, hregs⟩ := hown
    have hp {p : Piece} (hne : Piece.index ≠ p) := ownedPiece_ne hindex hne
    exact ⟨fun r => reg_of_not_mayWrite h (hregs r), sameStack_of_not_owned h (hp nofun),
      sameTimers_of_not_owned h (hp nofun) (hp nofun), sameMemory_of_not_owned h (hp nofun),
      sameDisplay_of_not_owned h (hp nofun), sameInputs_of_not_owned h (hp nofun)⟩
  · rintro ⟨x, rfl⟩
    have hp {p : Piece} (hne : Piece.delay ≠ p) := ownedPiece_ne (i := .ldDtVx x) rfl hne
    exact ⟨fun r => reg_of_not_mayWrite h id, samePiece_of_not_owned h (hp (p := .index) nofun),
      sameStack_of_not_owned h (hp nofun), samePiece_of_not_owned h (hp (p := .sound) nofun),
      sameMemory_of_not_owned h (hp nofun), sameDisplay_of_not_owned h (hp nofun), sameInputs_of_not_owned h (hp nofun)⟩
  · rintro ⟨x, rfl⟩
    have hp {p : Piece} (hne : Piece.sound ≠ p) := ownedPiece_ne (i := .ldStVx x) rfl hne
    exact ⟨fun r => reg_of_not_mayWrite h id, samePiece_of_not_owned h (hp (p := .index) nofun),
      sameStack_of_not_owned h (hp nofun), samePiece_of_not_owned h (hp (p := .delay) nofun),
      sameMemory_of_not_owned h (hp nofun), sameDisplay_of_not_owned h (hp nofun), sameInputs_of_not_owned h (hp nofun)⟩

/-- Settles O43: CLS and DRW own the display alone, and DRW may write VF alone. -/
theorem displayInstructionsChangeOnlyDisplayAndVF : Obligations.DisplayInstructionsChangeOnlyDisplayAndVF := by
  intro s t
  have frame {i : Instr} (hi : i.ownedPiece = some .display) (h : exec i s = .next t) :
      t.i = s.i ∧ SameStack s t ∧ SameTimers s t ∧ SameMemory s t ∧ SameInputs s t := by
    have hp {p : Piece} (hne : Piece.display ≠ p) := ownedPiece_ne hi hne
    exact ⟨samePiece_of_not_owned h (hp (p := .index) nofun), sameStack_of_not_owned h (hp nofun),
      sameTimers_of_not_owned h (hp nofun) (hp nofun), sameMemory_of_not_owned h (hp nofun),
      sameInputs_of_not_owned h (hp nofun)⟩
  exact ⟨fun h => ⟨fun r => reg_of_not_mayWrite h id, frame rfl h⟩,
    fun x y n h => ⟨fun r hr => reg_of_not_mayWrite h hr, frame rfl h⟩⟩

end Sys2Proof.Machine
end

section
/-! The faults of 60_exceptions.md and the step around them: the access through I by its last address, no refusal, the
exact conditions of MemoryAccessViolation, and that a fault looks at no input. -/

namespace Sys2Proof

/-- Two bytes that decode to an instruction are those of an opcode that does. -/
theorem decodeWord_of_decode {first second : Byte} {i : Instr} (h : decode [first, second] = .instr i []) :
    decodeWord (opcodeOfBytes first second) = some i := by
  simp only [decode] at h
  split at h
  next hdec => cases h; exact hdec
  next => cases h

end Sys2Proof

namespace Sys2Proof.Machine

/-! ## An access through I, by its last address -/

theorem beyondMemory_succ (base n : Nat) : beyondMemory base (n + 1) = decide (0x0FFF < base + n) := by
  simp [beyondMemory, Config.addrMax]

/-- An access of n + 1 bytes answers its effect exactly when the last of them is inside memory (20_memory.md R55). -/
theorem State.withRangeAtI_succ_eq_next (s : State) (n : Nat) (u t : State) :
    s.withRangeAtI (n + 1) u = .next t ↔ s.i.toNat + n ≤ 0x0FFF ∧ t = u := by
  rw [withRangeAtI_eq_next, beyondMemory_succ, decide_eq_false_iff_not, not_lt]

/-- An access of n + 1 bytes faults exactly when the last of them is outside memory (60_exceptions.md R191). -/
theorem State.withRangeAtI_succ_eq_fault (s : State) (n : Nat) (u : State) (f : Fault) :
    s.withRangeAtI (n + 1) u = .fault f ↔ 0x0FFF < s.i.toNat + n ∧ f = .memoryAccessViolation := by
  rw [withRangeAtI_eq_fault, beyondMemory_succ, decide_eq_true_iff]

theorem execLdB_eq_next (x : RegIdx) (s t : State) :
    execLdB x s = .next t ↔
      s.i.toNat + 2 ≤ 0x0FFF ∧ t = (s.store s.i.toNat (decimalDigits (s.reg x))).advance :=
  s.withRangeAtI_succ_eq_next 2 _ t

theorem execLdMemVx_eq_next (x : RegIdx) (s t : State) :
    execLdMemVx x s = .next t ↔
      s.i.toNat + x.val ≤ 0x0FFF ∧ t = (s.store s.i.toNat (s.regsUpTo x)).advance :=
  s.withRangeAtI_succ_eq_next x.val _ t

theorem execLdVxMem_eq_next (x : RegIdx) (s t : State) :
    execLdVxMem x s = .next t ↔
      s.i.toNat + x.val ≤ 0x0FFF ∧
        t = ({ s with v := fillRegs 0 s.v (s.bytesAt s.i.toNat (x.val + 1)) } : State).advance :=
  s.withRangeAtI_succ_eq_next x.val _ t

/-! ## Which instruction raises MemoryAccessViolation -/

/-- The instruction accesses a byte through I outside the memory (20_memory.md section 4). -/
def AccessesBeyond (i : Instr) (s : State) : Prop :=
  (∃ x y n, i = .drw x y n ∧ 1 ≤ n ∧ 0x0FFF < s.i.toNat + n - 1) ∨
  (∃ x, i = .ldB x ∧ 0x0FFF < s.i.toNat + 2) ∨
  (∃ x, i = .ldMemVx x ∧ 0x0FFF < s.i.toNat + x.val) ∨
  (∃ x, i = .ldVxMem x ∧ 0x0FFF < s.i.toNat + x.val)

theorem exec_eq_memoryAccessViolation (i : Instr) (s : State) :
    exec i s = .fault .memoryAccessViolation ↔ AccessesBeyond i s := by
  have hrange (n : Nat) (u : State) :=
    (s.withRangeAtI_succ_eq_fault n u .memoryAccessViolation).trans (and_iff_left rfl)
  constructor
  · intro h
    cases i with
    | drw x y n =>
      obtain ⟨hbeyond, -⟩ := (s.withRangeAtI_eq_fault n _ _).mp h
      exact .inl ⟨x, y, n, rfl, of_decide_eq_true hbeyond⟩
    | ldB x => exact .inr (.inl ⟨x, rfl, (hrange 2 _).mp h⟩)
    | ldMemVx x => exact .inr (.inr (.inl ⟨x, rfl, (hrange x.val _).mp h⟩))
    | ldVxMem x => exact .inr (.inr (.inr ⟨x, rfl, (hrange x.val _).mp h⟩))
    | call nnn => cases ((execCall_eq_fault nnn s _).mp h).2
    | ret => cases ((execRet_eq_fault s _).mp h).2
    | ldVxK x => rcases execLdVxK_cases x s with ⟨-, e⟩ | ⟨-, e⟩ <;> cases e.symm.trans h
    | _ => cases h
  · rintro (⟨x, y, n, rfl, hbeyond⟩ | ⟨x, rfl, hbeyond⟩ | ⟨x, rfl, hbeyond⟩ | ⟨x, rfl, hbeyond⟩)
    · exact (s.withRangeAtI_eq_fault n _ _).mpr ⟨decide_eq_true hbeyond, rfl⟩
    · exact (hrange 2 _).mpr hbeyond
    · exact (hrange x.val _).mpr hbeyond
    · exact (hrange x.val _).mpr hbeyond

/-- Whether and how an instruction faults is decided by I and SP (60_exceptions.md section 2). -/
theorem exec_fault_of_same_i_sp {i : Instr} {s t : State} {f : Fault} (h : exec i s = .fault f) (hi : t.i = s.i)
    (hsp : t.sp = s.sp) : exec i t = .fault f := by
  cases f with
  | memoryAccessViolation =>
    rw [exec_eq_memoryAccessViolation, AccessesBeyond] at h ⊢
    rwa [hi]
  | stackOverflow =>
    rw [exec_eq_stackOverflow] at h ⊢
    rwa [hsp]
  | stackUnderflow =>
    rw [exec_eq_stackUnderflow] at h ⊢
    rwa [hsp]

/-! ## Refusals and faults of a step -/

theorem exec_ne_refused (i : Instr) (s : State) (r : Refusal) : exec i s ≠ .refused r := by
  intro h
  cases i with
  | drw x y n => exact s.withRangeAtI_ne_refused _ _ r h
  | ldB x => exact s.withRangeAtI_ne_refused _ _ r h
  | ldMemVx x => exact s.withRangeAtI_ne_refused _ _ r h
  | ldVxMem x => exact s.withRangeAtI_ne_refused _ _ r h
  | call nnn => rcases s.push_cases (s.pc + 2#16) with ⟨hfull, e⟩ | ⟨hsp, e⟩ <;> simp [exec, execCall, e, raise] at h
  | ret => rcases s.pop_cases with ⟨hempty, e⟩ | ⟨hsp, e⟩ <;> simp [exec, execRet, e, raise] at h
  | ldVxK x => rcases execLdVxK_cases x s with ⟨-, e⟩ | ⟨-, e⟩ <;> cases e.symm.trans h
  | _ => cases h

theorem step_ne_refused (s : State) (r : Refusal) : step s ≠ .refused r := by
  intro h
  rcases step_cases s with ⟨-, hstep⟩ | ⟨w, i, -, -, hstep⟩ | ⟨w, -, -, hstep⟩
  · cases hstep.symm.trans h
  · exact exec_ne_refused i s r (hstep.symm.trans h)
  · cases hstep.symm.trans h

/-- A step that faults does so at the fetch, or in the instruction the fetched opcode decodes to. -/
theorem step_fault_cases {s : State} {f : Fault} (h : step s = .fault f) :
    (0x0FFE < s.pc.toNat ∧ f = .memoryAccessViolation) ∨
    ∃ w i, s.fetch = some w ∧ decodeWord w = some i ∧ exec i s = .fault f := by
  rcases step_cases s with ⟨hfetch, hstep⟩ | ⟨w, i, hfetch, hdec, hstep⟩ | ⟨w, -, -, hstep⟩
  · cases hstep.symm.trans h
    rcases s.fetch_cases with ⟨hpc, -⟩ | ⟨-, hsome⟩
    · exact .inl ⟨hpc, rfl⟩
    · cases hfetch.symm.trans hsome
  · exact .inr ⟨w, i, hfetch, hdec, hstep.symm.trans h⟩
  · cases hstep.symm.trans h

/-- A step that faults raises the same fault with any other keys and random input: neither takes part in the fetch, and
an instruction's fault is decided by I and SP. -/
theorem step_fault_of_inputs {s : State} {f : Fault} (h : step s = .fault f) (k : Word) (bs : List Byte) (j : Nat) :
    step { s with keys := k, rndIn := bs, rndIndex := j } = .fault f := by
  rcases step_fault_cases h with ⟨hpc, rfl⟩ | ⟨w, i, hfetch, hdec, hexec⟩
  · exact step_eq_fault_of_lt_pc hpc
  · exact (step_eq_exec_of_decode (s := { s with keys := k, rndIn := bs, rndIndex := j }) hfetch hdec).trans
      (exec_fault_of_same_i_sp hexec rfl rfl)

/-- STEP(rnd) at a state whose step faults reports the fault and changes nothing (60_exceptions.md R195). -/
theorem issue_step_of_fault {s : State} {f : Fault} (p : Config.Params) (rnd : Byte) (h : step s = .fault f) :
    issue p (.step rnd) s = (s, .status f.status) := by
  have hstep : step { s with rndIn := [rnd] } = .fault f := step_fault_of_inputs h s.keys [rnd] s.rndIndex
  simp only [issue, State.stepWith, hstep]

/-- A step of any opcode but Cxkk answers the same with any random input, and leaves it as it is (42_load_alu.md
R131). -/
theorem step_rndIn_of_next {s t : State} (hrnd : ∀ w x kk, s.fetch = some w → decodeWord w ≠ some (.rnd x kk))
    (h : step s = .next t) (bs : List Byte) : step { s with rndIn := bs } = .next { t with rndIn := bs } := by
  rcases step_cases s with ⟨-, hstep⟩ | ⟨w, i, hfetch, hdec, hstep⟩ | ⟨w, hfetch, hdec, hstep⟩
  · cases hstep.symm.trans h
  · have hi : ∀ x kk, i ≠ .rnd x kk := fun x kk e => hrnd w x kk hfetch (e ▸ hdec)
    rw [step_eq_exec_of_decode ((s.fetch_rndIn bs).trans hfetch) hdec, exec_of_rndIn i hi, ← hstep, h, mapNext]
  · cases hstep.symm.trans h
    exact step_eq_advance_of_unmatched ((s.fetch_rndIn bs).trans hfetch) hdec

/-- STEP(rnd) of any opcode but Cxkk leaves the next state of the step, whatever `rnd` is. -/
theorem issue_step_of_next_of_not_rnd {s t : State} (p : Config.Params) (rnd : Byte)
    (hrnd : ∀ w x kk, s.fetch = some w → decodeWord w ≠ some (.rnd x kk)) (h : step s = .next t) :
    issue p (.step rnd) s = (t, .status .ok) := by
  have hstep := step_rndIn_of_next hrnd h
  have hself : t = { t with rndIn := s.rndIn } := Host.Outcome.next.inj (h.symm.trans (hstep s.rndIn))
  exact (issue_step_of_next p (hstep [rnd])).trans (by rw [← hself])

/-! ## The obligations -/

/-- Settles O11: no arm of `exec` refuses, and a step that does not fault is such an arm or the no-operation. -/
theorem nothingIsRefused : Obligations.NothingIsRefused := ⟨exec_ne_refused, step_ne_refused⟩

/-- Settles O13: keys and random input take no part in the fetch, nor in what decides a fault. -/
theorem faultsDoNotDependOnInputs : Obligations.FaultsDoNotDependOnInputs := fun _ _ k bs j h =>
  step_fault_of_inputs h k bs j

/-- Settles O15: the accesses beyond memory, the fetch among them, and the STEP command as for every fault. -/
theorem memoryFaultsExactly : Obligations.MemoryFaultsExactly := by
  refine ⟨exec_eq_memoryAccessViolation, fun s => ⟨fun h => ?_, ?_⟩, fun p s rnd => issue_step_of_fault p rnd⟩
  · exact (step_fault_cases h).imp_left And.left
  · rintro (hpc | ⟨w, i, hfetch, hdec, hexec⟩)
    · exact step_eq_fault_of_lt_pc hpc
    · exact (step_eq_exec_of_decode hfetch hdec).trans hexec

/-- Settles O12: LOAD answers its own state when it rejects, STEP when it faults; no other command reports a status. -/
theorem failingCommandChangesNothing : Obligations.FailingCommandChangesNothing := by
  intro p c s e hreply hne
  cases c with
  | load bytes =>
    simp only [issue, State.load] at hreply ⊢
    split at hreply
    next hlong => rw [if_pos hlong]
    next => cases hreply; exact absurd rfl hne
  | step rnd =>
    simp only [issue, State.stepWith] at hreply ⊢
    split at hreply
    next => cases hreply; exact absurd rfl hne
    next => rfl
    next => rfl
  | _ => cases hreply

/-- Settles O9: the opcode fetched is that of the two bytes, and the command runs the step with `rnd` as its input. -/
theorem stepRunsTheDecodedInstruction : Obligations.StepRunsTheDecodedInstruction := by
  intro s i hpc hdecode
  have hfetch := s.fetch_of_le hpc
  have hdec := decodeWord_of_decode hdecode
  have hstep := step_eq_exec_of_decode hfetch hdec
  refine ⟨hstep, fun p rnd t h => ?_, fun p rnd t hrnd h => ?_⟩
  · exact issue_step_of_next p ((step_eq_exec_of_decode ((s.fetch_rndIn [rnd]).trans hfetch) hdec).trans h)
  · refine issue_step_of_next_of_not_rnd p rnd (fun w x kk hw hx => ?_) (hstep.trans h)
    cases hfetch.symm.trans hw
    exact hrnd x kk (Option.some.inj (hdec.symm.trans hx))

/-- Settles O30: the reply and the state are those of the step with the state's own random input, whatever `rnd` is. -/
theorem onlyRandomUsesTheInputByte : Obligations.OnlyRandomUsesTheInputByte := by
  intro p s rnd rnd' hrnd
  cases h : step s with
  | next t =>
    rw [issue_step_of_next_of_not_rnd p rnd hrnd h, issue_step_of_next_of_not_rnd p rnd' hrnd h]
  | fault f => rw [issue_step_of_fault p rnd h, issue_step_of_fault p rnd' h]
  | refused r => exact absurd h (step_ne_refused s r)

end Sys2Proof.Machine
end

section
/-! The rest of the control-transfer family (41_flow_control.md): the indexed jump, the return after a call, and the
program parked on a jump to itself. -/

namespace Sys2Proof.Machine

@[simp] theorem State.toNat_regWord (s : State) (x : RegIdx) : (s.regWord x).toNat = (s.reg x).toNat :=
  BitVec.toNat_setWidth_of_le (by decide)

/-- The target of Bnnn is the exact sum: a byte and a 12-bit address do not reach 65536. -/
theorem State.toNat_regWord_add_addrOperand (s : State) (x : RegIdx) (nnn : Addr12) :
    (s.regWord x + addrOperand nnn).toNat = (s.reg x).toNat + nnn.toNat := by
  rw [BitVec.toNat_add, toNat_regWord, toNat_addrOperand]
  exact Nat.mod_eq_of_lt (by omega)

/-- A parked program's step answers the same state: the jump sets pc to what it is. -/
theorem State.step_of_parked {s : State} (h : s.parked) : step s = .next s := by
  obtain ⟨w, nnn, hfetch, hdec, hself⟩ := h
  rw [step_eq_exec_of_decode hfetch hdec, exec, execJp, hself]
  rfl

/-- Where one step answers the same state, so does any number of them. -/
theorem run_of_step_self {s : State} (h : step s = .next s) (k : Nat) : Host.Core.run Sys2Proof.core k s = .next s := by
  induction k with
  | zero => rfl
  | succ k ih =>
    have hstep : Sys2Proof.core.step s = .next s := h
    simp only [Host.Core.run, hstep]
    exact ih

/-! ## The obligations -/

/-- Settles O20: the words by the encoder, and the target as the exact sum. -/
theorem indexedJumpAddsV0 : Obligations.IndexedJumpAddsV0 := by
  refine ⟨encodedAs_of_encode (fun _ => trivial) (fun _ => rfl) fun w h => wordNnn_of_and h rfl,
    fun nnn s => ⟨s.setPc (s.regWord 0 + addrOperand nnn), rfl, ?_, fun r => rfl⟩⟩
  rw [State.setPc_pc, State.toNat_regWord_add_addrOperand]

/-- Settles O21: RET pops the slot CALL pushed to, and the slots below it were not written. -/
theorem returnComesBackAfterTheCall : Obligations.ReturnComesBackAfterTheCall := by
  intro nnn s t u hcall hsp hstack
  obtain ⟨hfree, rfl⟩ := (execCall_eq_next nnn s t).mp hcall
  have hdepth : u.sp.val = s.sp.val + 1 := congrArg Fin.val hsp
  have hslots : u.stack = s.stack.set s.sp.val (s.pc + 2#16) hfree := hstack
  have hpop : 0 < u.sp.val := hdepth ▸ Nat.succ_pos _
  refine ⟨_, (execRet_eq_next u _).mpr ⟨hpop, rfl⟩, ?_, ?_, fun j hj => ?_⟩
  · simp [hdepth, hslots]
  · exact Fin.ext (by simp [hdepth])
  · simp only [State.setPc_stack, hslots]
    exact Vector.getElem_set_ne hfree j.isLt hj.ne'

/-- Settles O60: a parked program's step answers the same state, so every run does. -/
theorem parkedProgramStaysParked : Obligations.ParkedProgramStaysParked := by
  intro s h
  have hrun := run_of_step_self (State.step_of_parked h)
  exact ⟨hrun, fun k => ⟨s, hrun k⟩⟩

end Sys2Proof.Machine
end

section
/-! The invariant of the machine (10_state.md section 4): it holds after RESET, and every step and command keeps it. Its
three parts, the memory's form, the return addresses and pc, each by what an instruction does to that piece. -/

namespace Sys2Proof.Machine

/-! ## The memory's form -/

/-- A store inside the memory keeps the canonical form. -/
theorem State.store_mem_wf {s : State} (hm : s.mem.wf) {a : Nat} {bs : List Byte} (h : a + bs.length ≤ 4096) :
    (s.store a bs).mem.wf :=
  Memory.writeBytes_wf s.mem a bs hm h

theorem mem_wf_of_exec {i : Instr} {s t : State} (h : exec i s = .next t) (hm : s.mem.wf) : t.mem.wf := by
  by_cases hi : i.ownedPiece = some .memory
  · cases i with
    | ldB x =>
      obtain ⟨hrange, rfl⟩ := (execLdB_eq_next x s t).mp h
      refine State.store_mem_wf hm ?_
      rw [decimalDigits, List.length_cons, List.length_cons, List.length_singleton]
      omega
    | ldMemVx x =>
      obtain ⟨hrange, rfl⟩ := (execLdMemVx_eq_next x s t).mp h
      refine State.store_mem_wf hm ?_
      rw [s.length_regsUpTo]
      omega
    | _ => cases hi
  · have hsame : t.mem = s.mem := samePiece_of_not_owned h hi
    rwa [hsame]

/-! ## The return addresses -/

/-- Every live return address is within the bound of 10_state.md R27. -/
def State.ReturnsBounded (s : State) : Prop :=
  ∀ j : Fin Config.stackDepth, j.val < s.sp.val → s.stack[j].toNat ≤ returnMax

/-- A CALL pushes the address after it, which is bounded where the CALL could be fetched; a RET leaves fewer live slots;
no other instruction touches the stack. -/
theorem returnsBounded_of_exec {i : Instr} {s t : State} (h : exec i s = .next t) (hpc : s.pc.toNat ≤ 0x0FFE)
    (hs : s.ReturnsBounded) : t.ReturnsBounded := by
  intro j hj
  by_cases hi : i.ownedPiece = some .stack
  · cases i with
    | ret =>
      obtain ⟨hsp, rfl⟩ := (execRet_eq_next s t).mp h
      exact hs j (Nat.lt_of_lt_pred hj)
    | call nnn =>
      obtain ⟨hsp, rfl⟩ := (execCall_eq_next nnn s t).mp h
      by_cases hjs : j.val = s.sp.val
      · have hslot : (s.stack.set s.sp.val (s.pc + 2#16) hsp)[j] = s.pc + 2#16 := by simp [hjs]
        refine le_of_eq_of_le (congrArg BitVec.toNat hslot) ?_
        simp only [returnMax]
        bv_omega
      · exact le_of_eq_of_le (congrArg BitVec.toNat (Vector.getElem_set_ne hsp j.isLt (Ne.symm hjs)))
          (hs j (lt_of_le_of_ne (Nat.le_of_lt_succ hj) hjs))
    | _ => cases hi
  · obtain ⟨hsp, hstack⟩ := sameStack_of_not_owned h hi
    rw [hstack]
    exact hs j (hsp ▸ hj)

/-! ## pc -/

/-- By the table of pc (10_state.md section 4): the largest value is that of Bnnn, the sum of a byte and an address. -/
theorem pc_le_of_exec {i : Instr} {s t : State} (h : exec i s = .next t) (hpc : s.pc.toNat ≤ 0x0FFE)
    (hs : s.ReturnsBounded) : t.pc.toNat ≤ pcMax := by
  have hafter := pcAfter_of_next h
  have htwo (h2 : t.pc = s.pc + 2#16) : t.pc.toNat ≤ 0x10FE := by bv_omega
  have hskip (h4 : t.pc = s.pc + 4#16 ∨ t.pc = s.pc + 2#16) : t.pc.toNat ≤ 0x10FE := by bv_omega
  have haddr (nnn : Addr12) (ha : t.pc = addrOperand nnn) : t.pc.toNat ≤ 0x10FE := by
    rw [ha, toNat_addrOperand]
    omega
  cases i with
  | ret =>
    obtain ⟨hsp, hpop⟩ := hafter
    have := hs ⟨s.sp.val - 1, by omega⟩ (Nat.sub_lt hsp Nat.one_pos)
    rw [hpop]
    exact this.trans (by decide)
  | jp nnn => exact haddr nnn hafter
  | call nnn => exact haddr nnn hafter
  | jpV0 nnn =>
    rw [hafter, State.toNat_regWord_add_addrOperand]
    simp only [pcMax]
    omega
  | seByte | sneByte | seReg | sneReg | skp | sknp => exact hskip hafter
  | ldVxK x =>
    rcases hafter with ⟨-, rfl⟩ | h2
    · exact hpc.trans (by decide)
    · exact htwo h2
  | _ => exact htwo hafter

/-! ## The whole invariant -/

/-- The random input takes no part in the invariant. -/
theorem State.inv_rndIn (s : State) (bs : List Byte) : ({ s with rndIn := bs } : State).Inv ↔ s.Inv := Iff.rfl

/-- An instruction that could be fetched keeps the invariant. -/
theorem inv_of_exec {i : Instr} {s t : State} (h : exec i s = .next t) (hpc : s.pc.toNat ≤ 0x0FFE) (hs : s.Inv) :
    t.Inv := by
  obtain ⟨hmem, -, hret⟩ := hs
  exact ⟨mem_wf_of_exec h hmem, pc_le_of_exec h hpc hret, returnsBounded_of_exec h hpc hret⟩

theorem State.pc_le_of_fetch {s : State} {w : Word} (h : s.fetch = some w) : s.pc.toNat ≤ 0x0FFE := by
  rcases s.fetch_cases with ⟨-, hnone⟩ | ⟨hpc, -⟩
  · cases h.symm.trans hnone
  · exact hpc

theorem inv_of_step {s t : State} (h : step s = .next t) (hs : s.Inv) : t.Inv := by
  rcases step_cases s with ⟨-, hstep⟩ | ⟨w, i, hfetch, -, hstep⟩ | ⟨w, hfetch, -, hstep⟩
  · cases hstep.symm.trans h
  · exact inv_of_exec (hstep.symm.trans h) (State.pc_le_of_fetch hfetch) hs
  · cases hstep.symm.trans h
    obtain ⟨hmem, -, hret⟩ := hs
    have hpc := State.pc_le_of_fetch hfetch
    refine ⟨hmem, ?_, hret⟩
    simp only [State.advance_pc, pcMax]
    bv_omega

theorem inv_resetWith (p : Config.Params) : (State.resetWith p).Inv :=
  ⟨State.resetWith_mem_wf p, by rw [State.resetWith_pc]; decide, fun _ hj => absurd hj (Nat.not_lt_zero _)⟩

theorem inv_of_issue (p : Config.Params) (c : Command) {s : State} (hs : s.Inv) : (issue p c s).1.Inv := by
  cases c with
  | reset => exact inv_resetWith p
  | load bytes =>
    by_cases hlen : bytes.length ≤ 3584
    · rw [issue_load p bytes s hlen]
      exact ⟨State.store_mem_wf hs.1 (by omega), hs.2⟩
    · simp only [issue, State.load, if_pos (Nat.lt_of_not_le hlen)]
      exact hs
  | step rnd =>
    simp only [issue, State.stepWith]
    split
    next hstep => exact (State.inv_rndIn _ _).mpr (inv_of_step hstep ((s.inv_rndIn [rnd]).mpr hs))
    next => exact hs
    next => exact hs
  | _ => exact hs

theorem inv_of_issueAll (p : Config.Params) (cs : List Command) {s : State} (hs : s.Inv) : (issueAll p cs s).1.Inv := by
  induction cs generalizing s with
  | nil => exact hs
  | cons c cs ih => exact ih (inv_of_issue p c hs)

/-! ## The obligations -/

/-- Settles O58: an instruction keeps each of the three parts, and so does the no-operation. -/
theorem stepKeepsTheInvariant : Obligations.StepKeepsTheInvariant := fun _ _ hs h => inv_of_step h hs

/-- Settles O57: the memory is in its form at any parameters, pc is 0x0200, and no slot is live. -/
theorem resetMeetsTheInvariant : Obligations.ResetMeetsTheInvariant :=
  ⟨State.resetWith_default ▸ inv_resetWith defaultParams, inv_resetWith⟩

/-- Settles O59: each command keeps the invariant, a run by induction, and the run after RESET starts in it. -/
theorem everyHostRunKeepsTheInvariant : Obligations.EveryHostRunKeepsTheInvariant := by
  refine fun p => ⟨fun c s => inv_of_issue p c, fun cs s => inv_of_issueAll p cs, fun cs => ?_⟩
  obtain ⟨-, hpc, -⟩ := inv_of_issueAll p cs (inv_resetWith p)
  exact hpc

end Sys2Proof.Machine
end

section
/-! The rest of the load and arithmetic family (42_load_alu.md): logic, arithmetic with flag, shifts and random, each
through the register read after its write and the value written. -/

namespace Sys2Proof.Machine

/-! ## A flag and a result written -/

theorem State.reg_advance_setFlagReg_same (s : State) (f : Byte) (x : RegIdx) (b : Byte) :
    (s.setFlagReg f x b).advance.reg x = b := by
  rw [reg_advance, reg_setFlagReg, if_pos rfl]

theorem State.reg_advance_setFlagReg_flag (s : State) (f : Byte) {x : RegIdx} (b : Byte) (h : x ≠ regF) :
    (s.setFlagReg f x b).advance.reg regF = f := by
  rw [reg_advance, reg_setFlagReg, if_neg h.symm, if_pos rfl]

/-- What an instruction answers that writes a flag and a result, in the numbers the result and the flag are. -/
theorem State.exists_next_setFlagReg (s : State) (f : Byte) (x : RegIdx) (b : Byte) {R F : Nat → Prop}
    (hresult : R b.toNat) (hflag : F f.toNat) :
    ∃ t, (.next (s.setFlagReg f x b).advance : Result) = .next t ∧ R (t.reg x).toNat ∧
      (x ≠ regF → F (t.reg regF).toNat) ∧ AdvancesBy 2 s t :=
  ⟨_, rfl, (s.reg_advance_setFlagReg_same f x b).symm ▸ hresult,
    fun hx => (s.reg_advance_setFlagReg_flag f b hx).symm ▸ hflag,
    State.advancesBy_two_advance (s.setFlagReg_pc f x b)⟩

/-- What an instruction answers that writes a result and no flag. -/
theorem State.exists_next_setReg (s : State) (x : RegIdx) (b : Byte) {R : Byte → Prop} (hresult : R b) :
    ∃ t, (.next (s.setReg x b).advance : Result) = .next t ∧ R (t.reg x) ∧
      (x ≠ regF → t.reg regF = s.reg regF) ∧ AdvancesBy 2 s t :=
  ⟨_, rfl, (s.reg_advance_setReg_same x b).symm ▸ hresult, fun hx => s.reg_advance_setReg_of_ne b hx.symm,
    State.advancesBy_two_advance (s.setReg_pc x b)⟩

/-! ## The flags as numbers -/

theorem toNat_flagByte (c : Bool) : (flagByte c).toNat = if c then 1 else 0 := by
  cases c <;> rfl

theorem toNat_carryFlag (a b : Byte) : (carryFlag a b).toNat = if a.toNat + b.toNat > 255 then 1 else 0 := by
  simp [carryFlag, toNat_flagByte]

theorem toNat_greaterFlag (a b : Byte) : (greaterFlag a b).toNat = if a.toNat > b.toNat then 1 else 0 := by
  simp [greaterFlag, toNat_flagByte]

theorem toNat_lowBitFlag : ∀ a : Byte, (lowBitFlag a).toNat = a.toNat % 2 := by decide

theorem toNat_highBitFlag : ∀ a : Byte, (highBitFlag a).toNat = a.toNat / 128 := by decide

/-- The difference of two bytes as an integer, modulo 256 (R132). -/
theorem toNat_sub_byte (a b : Byte) : ((a - b).toNat : Int) = ((a.toNat : Int) - b.toNat) % 256 := by
  rw [BitVec.toNat_sub]
  omega

/-! ## The random input -/

theorem State.dropRandom_rndIn_supplied (s : State) (b : Byte) (rest : List Byte) (h : s.rndIn = b :: rest) :
    s.dropRandom.rndIn = rest := by
  simp [dropRandom, h]

/-! ## The obligations -/

/-- Settles O25: each meaning writes the bitwise result to Vx alone. -/
theorem logicIsBitwiseAndLeavesVF : Obligations.LogicIsBitwiseAndLeavesVF := fun x y s =>
  ⟨s.exists_next_setReg x _ (R := fun b => ∀ k, b.getLsbD k = ((s.reg x).getLsbD k || (s.reg y).getLsbD k))
      fun _ => BitVec.getLsbD_or,
    s.exists_next_setReg x _ (R := fun b => ∀ k, b.getLsbD k = ((s.reg x).getLsbD k && (s.reg y).getLsbD k))
      fun _ => BitVec.getLsbD_and,
    s.exists_next_setReg x _ (R := fun b => ∀ k, b.getLsbD k = ((s.reg x).getLsbD k ^^ (s.reg y).getLsbD k))
      fun _ => BitVec.getLsbD_xor⟩

/-- Settles O26: the result is the sum modulo 256 and the flag the carry, with the result last. -/
theorem addSetsSumAndCarry : Obligations.AddSetsSumAndCarry := fun x _ s =>
  s.exists_next_setFlagReg _ x _ (R := (· = _)) (F := (· = _)) (BitVec.toNat_add _ _) (toNat_carryFlag _ _)

/-- Settles O27: the result is the difference modulo 256 and the flag the strict comparison, with the result last. -/
theorem subtractionsSetDifferenceAndStrictFlag : Obligations.SubtractionsSetDifferenceAndStrictFlag := fun x _ s =>
  ⟨s.exists_next_setFlagReg _ x _ (R := fun n => (n : Int) = _) (F := (· = _)) (toNat_sub_byte _ _)
      (toNat_greaterFlag _ _),
    s.exists_next_setFlagReg _ x _ (R := fun n => (n : Int) = _) (F := (· = _)) (toNat_sub_byte _ _)
      (toNat_greaterFlag _ _)⟩

/-- Settles O28: a shift by one is a quotient or a product, and the flag the bit shifted out, with the result last. -/
theorem shiftsSetResultAndShiftedOutBit : Obligations.ShiftsSetResultAndShiftedOutBit := by
  intro x y s
  refine ⟨s.exists_next_setFlagReg _ x _ (R := (· = _)) (F := (· = _)) ?_ (toNat_lowBitFlag _),
    s.exists_next_setFlagReg _ x _ (R := (· = _)) (F := (· = _)) ?_ (toNat_highBitFlag _)⟩
  · rw [BitVec.toNat_ushiftRight, Nat.shiftRight_one]
  · rw [BitVec.toNat_shiftLeft, Nat.shiftLeft_eq, pow_one]

/-- Settles O29: the value written is the drawn byte AND kk; a STEP(rnd) draws `rnd`, and restores the random input. -/
theorem randomIsTheInputByteMasked : Obligations.RandomIsTheInputByteMasked := by
  refine ⟨fun x kk s => ?_, fun p x kk s w rnd hfetch hdec => ?_⟩
  · have hx := s.dropRandom.reg_advance_setReg_same x (s.randomByte &&& kk)
    refine ⟨(s.dropRandom.setReg x (s.randomByte &&& kk)).advance, rfl, fun k => ?_, fun b rest h => ⟨?_, ?_⟩,
      State.advancesBy_two_advance s.dropRandom_pc⟩
    · rw [hx, BitVec.getLsbD_and]
    · rw [hx, s.randomByte_supplied b rest h]
    · rw [State.advance_rndIn, State.setReg_rndIn, s.dropRandom_rndIn_supplied b rest h]
  · have hstep : step { s with rndIn := [rnd] } = .next { (s.setReg x (rnd &&& kk)).advance with rndIn := [] } :=
      step_eq_exec_of_decode ((s.fetch_rndIn [rnd]).trans hfetch) hdec
    refine ⟨_, issue_step_of_next p hstep, s.reg_advance_setReg_same x _,
      fun r hr => s.reg_advance_setReg_of_ne _ hr, ⟨rfl, rfl, rfl⟩, State.advancesBy_two_advance rfl⟩

end Sys2Proof.Machine
end

section
/-! The rest of the index and memory family (43_index_memory.md): the arithmetic on I, and the stores and the load of
the register block through the byte read after a store and the register read after a load. -/

namespace Sys2Proof.Machine

/-! ## A byte read after a store -/

theorem State.byteAt_store_of_lt (s : State) (hm : s.mem.wf) (a : Nat) {bs : List Byte} {k : Nat} (h : k < bs.length) :
    (s.store a bs).byteAt (a + k) = bs[k] := by
  rw [s.byteAt_store hm, if_pos (Nat.le_add_right a k), Nat.add_sub_cancel_left, List.getD_eq_getElem _ _ h]

theorem State.sameMemoryOutside_store (s : State) (hm : s.mem.wf) (a : Nat) (bs : List Byte) :
    SameMemoryOutside a bs.length s (s.store a bs) := by
  intro k hk
  rw [s.byteAt_store hm]
  split
  next hle => exact List.getD_eq_default _ _ (by omega)
  next => rfl

/-- The k-th of V0 to Vx, stored from address a upward. -/
theorem State.byteAt_store_regsUpTo (s : State) (hm : s.mem.wf) (a : Nat) {x k : RegIdx} (h : k ≤ x) :
    (s.store a (s.regsUpTo x)).byteAt (a + k.val) = s.reg k := by
  have hlen : k.val < (s.regsUpTo x).length := by
    rw [s.length_regsUpTo]
    exact Nat.lt_succ_of_le h
  rw [s.byteAt_store_of_lt hm a hlen, s.getElem_regsUpTo x k h]

/-- The hundreds, tens and units of a byte, stored from address a upward. -/
theorem State.byteAt_store_decimalDigits (s : State) (hm : s.mem.wf) (a : Nat) (b : Byte) :
    ((s.store a (decimalDigits b)).byteAt a).toNat = b.toNat / 100 ∧
    ((s.store a (decimalDigits b)).byteAt (a + 1)).toNat = b.toNat / 10 % 10 ∧
    ((s.store a (decimalDigits b)).byteAt (a + 2)).toNat = b.toNat % 10 := by
  have hdigit (k : Nat) (hk : k < 3) := congrArg BitVec.toNat (s.byteAt_store_of_lt hm a (bs := decimalDigits b) hk)
  have hfits (n : Nat) (hn : n < 256) : (BitVec.ofNat 8 n).toNat = n :=
    (BitVec.toNat_ofNat n 8).trans (Nat.mod_eq_of_lt hn)
  exact ⟨(hdigit 0 (by decide)).trans (hfits _ (by omega)), (hdigit 1 (by decide)).trans (hfits _ (by omega)),
    (hdigit 2 (by decide)).trans (hfits _ (by omega))⟩

/-- An opcode fetched where pc allows it is of the two bytes at pc and pc + 1: what holds of each byte and its address
holds of these. -/
theorem State.exists_fetch_of_byteAt {t : State} (hpc : t.pc.toNat ≤ 0x0FFE) {P : Byte → Nat → Prop}
    (h : ∀ a, P (t.byteAt a) a) :
    ∃ first second, t.fetch = some (opcodeOfBytes first second) ∧
      ∀ b a, (b = first ∧ a = t.pc.toNat) ∨ (b = second ∧ a = t.pc.toNat + 1) → P b a := by
  refine ⟨_, _, t.fetch_of_le hpc, ?_⟩
  rintro b a (⟨rfl, rfl⟩ | ⟨rfl, rfl⟩) <;> exact h _

/-! ## The obligations -/

/-- Settles O34: the sum and the product as numbers, of which the product needs no modulus. -/
theorem indexArithmetic : Obligations.IndexArithmetic := by
  refine ⟨encodedAs_of_encode (fun _ => trivial) (fun _ => rfl) fun w h => wordX_of_and h rfl rfl,
    encodedAs_of_encode (fun _ => trivial) (fun _ => rfl) fun w h => wordX_of_and h rfl rfl, fun x s =>
    ⟨⟨(s.setI (s.i + s.regWord x)).advance, rfl, ?_, fun r => rfl, State.advancesBy_two_advance rfl⟩,
      ⟨(s.setI (glyphAddress (s.reg x))).advance, rfl, ?_, fun r => rfl, State.advancesBy_two_advance rfl⟩⟩⟩
  · rw [State.advance_i, State.setI_i, BitVec.toNat_add, State.toNat_regWord]
  · rw [State.advance_i, State.setI_i, glyphAddress, BitVec.toNat_ofNat, Nat.mod_eq_of_lt (by omega)]

/-- Settles O36: with the last address inside memory each store is done, and its bytes are read back; else it faults. -/
theorem storesWriteDigitsAndRegisters : Obligations.StoresWriteDigitsAndRegisters := by
  intro x s hm
  obtain ⟨hhundreds, htens, hunits⟩ := s.byteAt_store_decimalDigits hm s.i.toNat (s.reg x)
  refine ⟨fun h => ⟨_, (execLdB_eq_next x s _).mpr ⟨h, rfl⟩, hhundreds, htens, hunits,
      State.advancesBy_two_advance rfl⟩, fun h => ?_,
    fun h => ⟨_, (execLdMemVx_eq_next x s _).mpr ⟨h, rfl⟩, fun k hk => s.byteAt_store_regsUpTo hm _ hk,
      State.advancesBy_two_advance rfl⟩, fun h => ?_⟩
  · exact (exec_eq_memoryAccessViolation _ s).mpr (.inr (.inl ⟨x, rfl, h⟩))
  · exact (exec_eq_memoryAccessViolation _ s).mpr (.inr (.inr (.inl ⟨x, rfl, h⟩)))

/-- Settles O37: with the last address inside memory each register holds its byte; else the load faults. -/
theorem loadReadsRegisterBlock : Obligations.LoadReadsRegisterBlock := by
  refine fun x s => ⟨fun h => ⟨_, (execLdVxMem_eq_next x s _).mpr ⟨h, rfl⟩, fun k hk => ?_,
    State.advancesBy_two_advance rfl⟩, fun h => ?_⟩
  · have hloaded := getElem_fillRegs_of_length s.v x k (s.bytesAt s.i.toNat (x.val + 1)) (Memory.length_readBytes _ _ _)
    rw [dif_pos hk] at hloaded
    exact hloaded.trans (Memory.getElem_readBytes _ _ _ _ (Nat.lt_succ_of_le hk))
  · exact (exec_eq_memoryAccessViolation _ s).mpr (.inr (.inr (.inr ⟨x, rfl, h⟩)))

/-- Settles O38: a store owns the memory alone, and changes it inside its range; the load owns no piece. -/
theorem memoryInstructionsChangeOnlyTheirTargets : Obligations.MemoryInstructionsChangeOnlyTheirTargets := by
  intro x s t hm
  have frame {i : Instr} (hi : i.ownedPiece = some .memory) (hregs : ∀ r, ¬ i.MayWrite r) (h : exec i s = .next t) :
      SameRegs s t ∧ t.i = s.i ∧ SameStack s t ∧ SameTimers s t ∧ SameDisplay s t ∧ SameInputs s t := by
    have hp {p : Piece} (hne : Piece.memory ≠ p) := ownedPiece_ne hi hne
    exact ⟨fun r => reg_of_not_mayWrite h (hregs r), samePiece_of_not_owned h (hp (p := .index) nofun),
      sameStack_of_not_owned h (hp nofun), sameTimers_of_not_owned h (hp nofun) (hp nofun),
      sameDisplay_of_not_owned h (hp nofun), sameInputs_of_not_owned h (hp nofun)⟩
  refine ⟨fun h => ⟨?_, frame rfl (fun _ => id) h⟩, fun h => ⟨?_, frame rfl (fun _ => id) h⟩, fun h => ?_⟩
  · obtain ⟨-, rfl⟩ := (execLdB_eq_next x s t).mp h
    exact s.sameMemoryOutside_store hm s.i.toNat (decimalDigits (s.reg x))
  · obtain ⟨-, rfl⟩ := (execLdMemVx_eq_next x s t).mp h
    have hout := s.sameMemoryOutside_store hm s.i.toNat (s.regsUpTo x)
    rwa [s.length_regsUpTo] at hout
  · obtain ⟨hi, hstack, htimers, hmem, hrest⟩ := frame_of_owns_nothing h rfl
    exact ⟨hmem, fun r hr => reg_of_not_mayWrite h hr, hi, hstack, htimers, hrest⟩

/-- Settles O39: the bytes fetched are those that memory holds after the store, the stored ones inside its range. -/
theorem storeIsSeenByTheNextFetch : Obligations.StoreIsSeenByTheNextFetch := by
  intro x s t hm hpc
  refine ⟨fun h => State.exists_fetch_of_byteAt hpc fun a => ?_, fun h => State.exists_fetch_of_byteAt hpc fun a => ?_⟩
  · obtain ⟨-, rfl⟩ := (execLdMemVx_eq_next x s t).mp h
    have hout := s.sameMemoryOutside_store hm s.i.toNat (s.regsUpTo x) a
    rw [s.length_regsUpTo] at hout
    refine ⟨?_, fun ha => hout (by omega)⟩
    rintro k hk rfl
    exact s.byteAt_store_regsUpTo hm _ hk
  · obtain ⟨-, rfl⟩ := (execLdB_eq_next x s t).mp h
    obtain ⟨hhundreds, htens, hunits⟩ := s.byteAt_store_decimalDigits hm s.i.toNat (s.reg x)
    have hout : a < s.i.toNat ∨ s.i.toNat + 3 ≤ a → _ :=
      s.sameMemoryOutside_store hm s.i.toNat (decimalDigits (s.reg x)) a
    refine ⟨?_, ?_, ?_, fun ha => hout (by omega)⟩
    · rintro rfl
      exact hhundreds
    · rintro rfl
      exact htens
    · rintro rfl
      exact hunits

end Sys2Proof.Machine
end

section
/-! The rest of the display family (44_display.md): the sprite's bits over a pixel in the words of the statements,
what a draw answers, and the draw twice. -/

namespace Sys2Proof.Machine

/-! ## The sprite over a pixel -/

theorem rowCovers_iff (a sprite : Byte) (c : Fin Config.screenWidth) :
    rowCovers a sprite c = true ↔ ∃ i, i < 8 ∧ (a.toNat + i) % 64 = c.val ∧ sprite.getLsbD (7 - i) = true := by
  simp only [rowCovers, List.any_eq_true, List.mem_range, Bool.and_eq_true, decide_eq_true_eq, Fin.ext_iff, targetCol,
    eq_comm (a := c.val)]

/-- The rows that the draw reads from memory cover a pixel exactly where the sprite does. -/
theorem rowsCover_eq_true_iff (s : State) (x y : RegIdx) (n : Nat) (r : Fin Config.screenHeight)
    (c : Fin Config.screenWidth) :
    rowsCover (s.reg x) (s.reg y) 0 (s.bytesAt s.i.toNat n) r c = true ↔ SpriteCovers s x y n r c := by
  have hlen : (s.bytesAt s.i.toNat n).length = n := Memory.length_readBytes _ _ _
  have hbyte (row : Nat) (h : row < n) : (s.bytesAt s.i.toNat n)[row]'(hlen.symm ▸ h) = s.byteAt (s.i.toNat + row) :=
    Memory.getElem_readBytes _ _ _ _ h
  rw [rowsCover_iff]
  constructor
  · rintro ⟨row, hrow, hr, hc⟩
    rw [hlen] at hrow
    rw [hbyte row hrow, rowCovers_iff] at hc
    obtain ⟨i, hi, hcol, hbit⟩ := hc
    refine ⟨row, i, hrow, hi, ?_, hcol, hbit⟩
    rw [hr, Nat.zero_add]
    rfl
  · rintro ⟨row, i, hrow, hi, hr, hcol, hbit⟩
    refine ⟨row, hlen.symm ▸ hrow, Fin.ext ?_, ?_⟩
    · rw [← hr, Nat.zero_add]
      rfl
    · rw [hbyte row hrow, rowCovers_iff]
      exact ⟨i, hi, hcol, hbit⟩

/-! ## What a draw leaves -/

/-- Each pixel is XORed with the sprite bit over it (R151). -/
theorem State.pixel_drawn (s : State) (x y : RegIdx) {n : Nat} (hn : n ≤ 32) (r : Fin Config.screenHeight)
    (c : Fin Config.screenWidth) :
    pixel (s.drawn x y n).1 r c = true ↔ (pixel s.disp r c = true ↔ ¬ SpriteCovers s x y n r c) := by
  have hlen : (s.bytesAt s.i.toNat n).length ≤ 32 := by rwa [State.bytesAt, Memory.length_readBytes]
  rw [drawn, drawSprite, pixel_drawRows _ _ 0 _ hlen, ← rowsCover_eq_true_iff]
  cases pixel s.disp r c <;> simp

/-- The collision flag is on iff a lit pixel lay under a sprite bit (R151). -/
theorem State.collision_drawn (s : State) (x y : RegIdx) {n : Nat} (hn : n ≤ 32) :
    (s.drawn x y n).2 = true ↔ ∃ r c, pixel s.disp r c = true ∧ SpriteCovers s x y n r c := by
  have hlen : (s.bytesAt s.i.toNat n).length ≤ 32 := by rwa [State.bytesAt, Memory.length_readBytes]
  rw [drawn, drawSprite, collision_drawRows _ _ 0 _ hlen]
  simp [rowsCover_eq_true_iff]

/-- What DRW answers, where the sprite lies in memory. -/
theorem execDrw_eq_next (x y : RegIdx) (n : Nat) (s t : State) :
    execDrw x y n s = .next t ↔ (n = 0 ∨ s.i.toNat + n - 1 ≤ 0x0FFF) ∧
      t = ((s.setDisp (s.drawn x y n).1).setReg regF (flagByte (s.drawn x y n).2)).advance := by
  rw [execDrw, State.withRangeAtI_eq_next]
  refine and_congr_left fun _ => ?_
  rw [beyondMemory, decide_eq_false_iff_not, Config.addrMax]
  omega

theorem flagByte_eq_one_iff (c : Bool) : flagByte c = 1#8 ↔ c = true := by
  cases c <;> decide

/-- The pixels and VF after a DRW. -/
theorem pixel_and_flag_of_draw {x y : RegIdx} {n : Nat} {s t : State} (hn : n ≤ 32)
    (h : exec (.drw x y n) s = .next t) :
    (∀ r c, pixel t.disp r c = true ↔ (pixel s.disp r c = true ↔ ¬ SpriteCovers s x y n r c)) ∧
    (t.reg regF = 1#8 ↔ ∃ r c, pixel s.disp r c = true ∧ SpriteCovers s x y n r c) := by
  obtain ⟨-, rfl⟩ := (execDrw_eq_next x y n s t).mp h
  refine ⟨s.pixel_drawn x y hn, ?_⟩
  rw [State.reg_advance_setReg_same, flagByte_eq_one_iff, s.collision_drawn x y hn]

/-- A DRW whose coordinates are not in VF leaves the sprite and its place as they were. -/
theorem spriteCovers_of_draw {x y : RegIdx} {n : Nat} {s t : State} (hx : x ≠ regF) (hy : y ≠ regF)
    (h : exec (.drw x y n) s = .next t) (r : Fin Config.screenHeight) (c : Fin Config.screenWidth) :
    SpriteCovers t x y n r c ↔ SpriteCovers s x y n r c := by
  have hmem : SameMemory s t := sameMemory_of_not_owned h nofun
  have hi : t.i = s.i := samePiece_of_not_owned h (p := .index) nofun
  simp only [SpriteCovers, reg_of_not_mayWrite h hx, reg_of_not_mayWrite h hy, hi, hmem _]

/-! ## The obligations -/

/-- Settles O41: the loops of the draw as XOR and collision over the pixels, VF 0 where there is no collision. -/
theorem drawXorsTheSpriteAndReportsCollision : Obligations.DrawXorsTheSpriteAndReportsCollision := by
  intro x y n s hwf hrange
  have hn : n ≤ 32 := Nat.le_trans hwf (by decide)
  have hcollision := s.collision_drawn x y hn
  refine ⟨_, (execDrw_eq_next x y n s _).mpr ⟨hrange, rfl⟩, s.pixel_drawn x y hn, ?_,
    State.advancesBy_two_advance rfl⟩
  rw [State.reg_advance_setReg_same]
  cases hflag : (s.drawn x y n).2
  case true => exact .inl ⟨rfl, hcollision.mp hflag⟩
  case false =>
    refine .inr ⟨rfl, fun r c hlit hcovers => ?_⟩
    rw [hcollision.mpr ⟨r, c, hlit, hcovers⟩] at hflag
    cases hflag

/-- Settles O42: the second draw XORs the same bits at the same place, and it collides with the first's pixels. -/
theorem drawingTwiceRestoresTheDisplay : Obligations.DrawingTwiceRestoresTheDisplay := by
  intro x y n s t u hwf hx hy hfirst hsecond
  have hn : n ≤ 32 := Nat.le_trans hwf (by decide)
  have hsame := spriteCovers_of_draw hx hy hfirst
  obtain ⟨hpix, -⟩ := pixel_and_flag_of_draw hn hfirst
  obtain ⟨hpix', hflag⟩ := pixel_and_flag_of_draw hn hsecond
  simp only [hsame] at hpix' hflag
  refine ⟨fun r c => Bool.eq_iff_iff.mpr ?_, hflag⟩
  rw [hpix', hpix]
  tauto

end Sys2Proof.Machine
end

section
/-! The rest of the keypad family (45_keypad_timers.md): the key tested by a whole byte, and the key a wait stores. -/

namespace Sys2Proof.Machine

/-- A byte names a pressed key iff it is a key's index and that key's bit is 1 (R160, D12). -/
theorem keyPressed_iff (keys : Word) (a : Byte) :
    keyPressed keys a = true ↔ ∃ k : RegIdx, k.val = a.toNat ∧ keys.getLsbD k.val = true := by
  rw [keyPressed, Bool.and_eq_true, decide_eq_true_iff]
  constructor
  · rintro ⟨hle, hbit⟩
    exact ⟨⟨a.toNat, Nat.lt_succ_of_le hle⟩, rfl, hbit⟩
  · rintro ⟨k, hk, hbit⟩
    rw [← hk]
    exact ⟨Nat.le_of_lt_succ k.isLt, hbit⟩

theorem not_keyPressed_iff (keys : Word) (a : Byte) :
    (!keyPressed keys a) = true ↔ ¬ ∃ k : RegIdx, k.val = a.toNat ∧ keys.getLsbD k.val = true := by
  rw [← keyPressed_iff, Bool.not_eq_true', Bool.not_eq_true]

/-- In the snapshot of one pressed key no other key is pressed. -/
theorem eq_of_getLsbD_one_shiftLeft : ∀ j k : RegIdx, (1#16 <<< j.val).getLsbD k.val = true → k = j := by decide

@[simp] theorem toNat_keyByte (k : RegIdx) : (keyByte k).toNat = k.val := by
  rw [keyByte, BitVec.toNat_ofNat]
  omega

/-! ## The obligations -/

/-- Settles O44: each skip's condition is that the byte names a pressed key. -/
theorem keySkipsTestTheSnapshot : Obligations.KeySkipsTestTheSnapshot := by
  refine ⟨encodedAs_of_encode (fun _ => trivial) (fun _ => rfl) fun w h => wordX_of_and h rfl rfl,
    encodedAs_of_encode (fun _ => trivial) (fun _ => rfl) fun w h => wordX_of_and h rfl rfl, fun x s => ⟨?_, ?_⟩⟩
  · obtain ⟨t, ht, hpc, hregs⟩ := s.exists_next_skipIf (keyPressed_iff s.keys (s.reg x))
    exact ⟨t, ht, hregs, hpc⟩
  · obtain ⟨t, ht, hpc, hregs⟩ := s.exists_next_skipIf (not_keyPressed_iff s.keys (s.reg x))
    rw [ite_not] at hpc
    exact ⟨t, ht, hregs, hpc⟩

/-- Settles O45: with no key pressed the meaning answers its own state, else it stores the picked key, a pressed one. -/
theorem keyWaitStallsOrStoresAPressedKey : Obligations.KeyWaitStallsOrStoresAPressedKey := by
  refine ⟨encodedAs_of_encode (fun _ => trivial) (fun _ => rfl) fun w h => wordX_of_and h rfl rfl, fun x s => ?_⟩
  rcases execLdVxK_cases x s with ⟨hkeys, hexec⟩ | ⟨hkeys, hexec⟩
  · exact ⟨fun _ => hexec, fun hne => absurd hkeys hne⟩
  · have hpressed := keyPick_pressed s.keys hkeys
    refine ⟨fun h => absurd h hkeys, fun _ => ⟨_, keyPick s.keys, hexec, ?_, hpressed, fun j hj => ?_,
      State.advancesBy_two_advance rfl⟩⟩
    · rw [State.reg_advance_setReg_same, toNat_keyByte]
    · rw [hj] at hpressed ⊢
      exact eq_of_getLsbD_one_shiftLeft j _ hpressed

end Sys2Proof.Machine
end

section
/-! The rest of the reset and host command families (10_state.md section 11, 46_host_commands.md). -/

namespace Sys2Proof.Machine

/-- The registers are all 0 after RESET. -/
theorem State.reg_resetWith (p : Config.Params) (r : RegIdx) : (State.resetWith p).reg r = 0 := by
  rw [reg_eq, resetWith_v, State.reset, Fin.getElem_fin, Vector.getElem_replicate]
  rfl

theorem State.stack_resetWith (p : Config.Params) (j : Fin Config.stackDepth) : (State.resetWith p).stack[j] = 0 := by
  rw [resetWith_stack, State.reset, Fin.getElem_fin, Vector.getElem_replicate]
  rfl

/-- The first 80 bytes after RESET are the font. -/
theorem State.byteAt_resetWith_font (p : Config.Params) {a : Nat} (h : a < 80) :
    (State.resetWith p).byteAt a = p.font[a] := by
  rw [byteAt_resetWith p a (by simp only [Config.memSize]; omega)]
  simp only [resetBytes]
  rw [List.getElem_append_left (by simpa using h), Vector.getElem_toList]

theorem State.byteAt_resetWith_memInit (p : Config.Params) {a : Nat} (h : a < 4016) :
    (State.resetWith p).byteAt (80 + a) = p.memInit[a] := by
  rw [byteAt_resetWith p (80 + a) (by simp only [Config.memSize]; omega)]
  simp only [resetBytes]
  rw [List.getElem_append_right (by simp), Vector.getElem_toList]
  simp

/-- The flat display has 2048 pixels. -/
theorem State.length_flatDisplay (s : State) : s.flatDisplay.length = 2048 := by
  simp [flatDisplay, List.length_flatMap, Config.screenHeight, Config.screenWidth]

/-! ## The obligations -/

/-- Settles O52: field by field; memory is the parameters' bytes, the font below 80 and the rest above. -/
theorem resetValues : Obligations.ResetValues :=
  ⟨fun p => ⟨State.reg_resetWith p, rfl, rfl, rfl, State.stack_resetWith p, rfl, rfl, pixel_blank, rfl,
    fun _ h => State.byteAt_resetWith_font p h, fun _ h => State.byteAt_resetWith_memInit p h⟩, State.resetWith_default⟩

/-- Settles O54: an accepted program is one store at 0x200, and a longer one is rejected before it. -/
theorem loadCopiesTheProgramOnly : Obligations.LoadCopiesTheProgramOnly := by
  refine fun p bytes s hm => ⟨fun hlen => ⟨_, issue_load p bytes s hlen, fun k h => s.byteAt_store_of_lt hm 0x200 h,
    s.sameMemoryOutside_store hm 0x200 bytes, rfl⟩, fun hlong => ?_⟩
  exact if_pos hlong

/-- Settles O56: each command by its meaning, and the flat display by its length and its pixels. -/
theorem otherHostCommands : Obligations.OtherHostCommands := fun _ s =>
  ⟨fun k => ⟨s.setKeys k, rfl, rfl, rfl⟩, ⟨s.flatDisplay, rfl, s.length_flatDisplay, s.getElem?_flatDisplay⟩, rfl, rfl⟩

end Sys2Proof.Machine
end
